-- ==== Sys2Proof/Word.lean ====
section
/-!
DEFINITION. The words of the SR-ARQ core: the 32-bit word, the byte, and the packet record made of them.
-/

namespace Sys2Proof

/-- A 32-bit pattern: the command word, a packet's header field, a register's read-out (R11, R70). -/
abbrev Word := BitVec 32

/-- The smallest addressable unit of `IBUF` (R50). -/
abbrev Byte := BitVec 8

/-- A packet record (R16): three 32-bit patterns and the payload, an array of `P` bytes. That the payload has
exactly `P` bytes is part of the invariants of `Sys2Proof/Safety.lean`. -/
structure Packet where
  seqnum : Word
  acknum : Word
  payload : List Byte
  checksum : Word
  deriving DecidableEq, Repr, Inhabited

end Sys2Proof
end

