-- ==== Sys2Proof/Syntax.lean ====
section
/-!
DEFINITION. The fifteen commands of R74, one constructor per row of spec/opcode_table.json, and the names of the
registers that `RDSR` reads (R40).
-/

namespace Sys2Proof

/-- A decoded command. Operands are plain unsigned numbers (R71); packet and message operands come from `IBUF`
and not from the word (R73). -/
inductive Instr where
  /-- `RDIST x, y` (R92). -/
  | rdist (x y : Nat)
  /-- `RINC x` (R93). -/
  | rinc (x : Nat)
  /-- `RDEC x` (R94). -/
  | rdec (x : Nat)
  /-- `RINWIN x, base` (R95). -/
  | rinwin (x base : Nat)
  /-- `CSUM` (R104). -/
  | csum
  /-- `CHK` (R105). -/
  | chk
  /-- `A_INIT` (R115). -/
  | aInit
  /-- `A_OUTPUT` (R116). -/
  | aOutput
  /-- `A_ONACK` (R118). -/
  | aOnack
  /-- `A_ONTIMEOUT` (R122). -/
  | aOntimeout
  /-- `B_INIT` (R131). -/
  | bInit
  /-- `B_ONPACKET` (R133). -/
  | bOnpacket
  /-- `B_OUTPUT` (R136). -/
  | bOutput
  /-- `B_TIMERINT` (R137). -/
  | bTimerint
  /-- `RDSR n, i` (R145): the register number and the slot index. -/
  | rdsr (n i : Nat)
  deriving DecidableEq, Repr

/-- The registers with a read-out number (R40). -/
inductive ReadReg where
  | cfg0 | cfg1 | status | fault
  | aBase | aNext | aTseq | aCount | aSlot
  | bBase | bSlot
  | cntPacketsResent | cntNewAcks | cntWindowFull | cntPacketsReceived | cntTotalAcksReceived
  deriving DecidableEq, Repr

end Sys2Proof
end

