-- ==== Sys2Proof/WellFormed.lean ====
section
/-!
DEFINITION. When a command term stands for a command word: each operand fits its unsigned 12-bit field (R71).
Whether an operand is a sequence number of the instance is no matter of form: it is checked when the command
executes, and a number that is none is refused with `BADARG` (R91, R145).
-/

namespace Sys2Proof

/-- A number that an operand field holds (R71: "unsigned 12-bit"). -/
def fits12 (n : Nat) : Bool := decide (n < 2 ^ 12)

/-- The check of R71 on every operand of a command. -/
def Instr.wf : Instr → Bool
  | .rdist x y => fits12 x && fits12 y
  | .rinc x => fits12 x
  | .rdec x => fits12 x
  | .rinwin x base => fits12 x && fits12 base
  | .csum => true
  | .chk => true
  | .aInit => true
  | .aOutput => true
  | .aOnack => true
  | .aOntimeout => true
  | .bInit => true
  | .bOnpacket => true
  | .bOutput => true
  | .bTimerint => true
  | .rdsr n i => fits12 n && fits12 i

end Sys2Proof
end

