-- ==== Sys2Proof/Decode.lean ====
section
/-!
DEFINITION. The command word's fields, formats and opcodes (R71 to R75): the decoder, total on every 32-bit word and
rejecting by name, and after it the encoder. The command word is a word and no byte sequence (R55), so there is no
byte order to undo.
-/

namespace Sys2Proof

/-- The `op` field, `cmd[7:0]` (R71). -/
def fieldOp (cmd : Word) : BitVec 8 := cmd.extractLsb' 0 8

/-- The operand `a = zext(cmd[19:8])` (R71). -/
def fieldA (cmd : Word) : Nat := (cmd.extractLsb' 8 12).toNat

/-- The operand `b = zext(cmd[31:20])` (R71). -/
def fieldB (cmd : Word) : Nat := (cmd.extractLsb' 20 12).toNat

/-- The three formats (R72). -/
inductive Format where
  /-- No operand: `a` and `b` must both be 0. -/
  | n
  /-- One operand: `b` must be 0. -/
  | a
  /-- Two operands. -/
  | ab
  deriving DecidableEq, Repr

/-- The mask for decoding (R72, last column). -/
def formatMask : Format → Word
  | .n => 0xFFFFFFFF
  | .a => 0xFFF000FF
  | .ab => 0x000000FF

/-- A row of the command set (R74); `build` makes the command of the fields `a` and `b`. -/
structure OpcodeRow where
  op : BitVec 8
  format : Format
  build : Nat → Nat → Instr

/-- The complete command set, in opcode order (R74). -/
def opcodeRows : List OpcodeRow :=
  [ ⟨0x10, .ab, fun a b => .rdist a b⟩,
    ⟨0x11, .a, fun a _ => .rinc a⟩,
    ⟨0x12, .a, fun a _ => .rdec a⟩,
    ⟨0x13, .ab, fun a b => .rinwin a b⟩,
    ⟨0x20, .n, fun _ _ => .csum⟩,
    ⟨0x21, .n, fun _ _ => .chk⟩,
    ⟨0x30, .n, fun _ _ => .aInit⟩,
    ⟨0x31, .n, fun _ _ => .aOutput⟩,
    ⟨0x32, .n, fun _ _ => .aOnack⟩,
    ⟨0x33, .n, fun _ _ => .aOntimeout⟩,
    ⟨0x40, .n, fun _ _ => .bInit⟩,
    ⟨0x41, .n, fun _ _ => .bOnpacket⟩,
    ⟨0x42, .n, fun _ _ => .bOutput⟩,
    ⟨0x43, .n, fun _ _ => .bTimerint⟩,
    ⟨0x50, .ab, fun a b => .rdsr a b⟩ ]

/-- A row's `match` word (R74): the opcode with every must-be-zero field zero. -/
def rowMatch (r : OpcodeRow) : Word := r.op.setWidth 32

/-- Why a word is no command (R75, R76). Both are refused with `ILLCMD` when the word is issued. -/
inductive DecodeReject where
  /-- `cmd[7:0]` is not one of the fifteen opcodes. -/
  | unknownOpcode
  /-- A field that must be 0 in the opcode's format is not. -/
  | nonzeroField
  deriving DecidableEq, Repr

/-- The decoding procedure (R75): total, every word is exactly one command or rejected. -/
def decode (cmd : Word) : Except DecodeReject Instr :=
  match opcodeRows.find? (fun r => r.op == fieldOp cmd) with
  | none => .error .unknownOpcode
  | some r =>
    if cmd &&& formatMask r.format = rowMatch r then .ok (r.build (fieldA cmd) (fieldB cmd))
    else .error .nonzeroField

/-- The word `op | (a << 8) | (b << 20)` (R75). -/
def packCommand (op : BitVec 8) (a b : Nat) : Word :=
  op.setWidth 32 ||| (BitVec.ofNat 32 a <<< 8) ||| (BitVec.ofNat 32 b <<< 20)

/-- A command's opcode (R74). -/
def Instr.opcode : Instr → BitVec 8
  | .rdist _ _ => 0x10
  | .rinc _ => 0x11
  | .rdec _ => 0x12
  | .rinwin _ _ => 0x13
  | .csum => 0x20
  | .chk => 0x21
  | .aInit => 0x30
  | .aOutput => 0x31
  | .aOnack => 0x32
  | .aOntimeout => 0x33
  | .bInit => 0x40
  | .bOnpacket => 0x41
  | .bOutput => 0x42
  | .bTimerint => 0x43
  | .rdsr _ _ => 0x50

/-- A command's first operand, 0 where the format has none (R72, R74). -/
def Instr.operandA : Instr → Nat
  | .rdist x _ => x
  | .rinc x => x
  | .rdec x => x
  | .rinwin x _ => x
  | .rdsr n _ => n
  | .csum | .chk | .aInit | .aOutput | .aOnack | .aOntimeout | .bInit | .bOnpacket | .bOutput | .bTimerint => 0

/-- A command's second operand, 0 where the format has none (R72, R74). -/
def Instr.operandB : Instr → Nat
  | .rdist _ y => y
  | .rinwin _ base => base
  | .rdsr _ i => i
  | .rinc _ | .rdec _ | .csum | .chk | .aInit | .aOutput | .aOnack | .aOntimeout | .bInit | .bOnpacket | .bOutput
  | .bTimerint => 0

/-- The word of a command (R75). -/
def encode (i : Instr) : Word := packCommand i.opcode i.operandA i.operandB

/-- What the decoder reads from a command of `nbits` bits `w`, every bit above `nbits` being 0; a command has one
32-bit word (R70), so a longer one is none. -/
def decodeTableWord (nbits w : Nat) : Option Instr :=
  if w % 2 ^ nbits < 2 ^ 32 then
    match decode (BitVec.ofNat 32 (w % 2 ^ nbits)) with
    | .ok i => some i
    | .error _ => none
  else none

end Sys2Proof
end

