-- ==== Sys2Proof/Config.lean ====
section
/-!
DEFINITION. The configuration of an instance (R7 to R9), the constants this spec fixes beside it, and the free
values: opaque constants without a body, so that no proof can see what they are.
-/

namespace Sys2Proof

/-- An instance's configuration with its proof of legality (R7, R8): "an illegal configuration is not an instance
of the hardware, and a model's configuration type carries the proof of legality". -/
structure Config where
  /-- `WINDOWSIZE`: the most packets outstanding. -/
  W : Nat
  /-- `SEQSPACE`: the size of the ring of sequence numbers. -/
  S : Nat
  /-- `PAYLOAD`: the payload's size in bytes. -/
  P : Nat
  /-- The opaque duration carried in `TStart` events (D28, OPEN). DESIGN CHOICE: a rational; see log 6. -/
  rtt : Rat
  one_le_W : 1 ≤ W
  two_W_le_S : 2 * W ≤ S
  S_le : S ≤ 4096
  one_le_P : 1 ≤ P
  P_le : P ≤ 65535
  deriving DecidableEq, Repr

/-- `REFCFG` (R9). -/
def Config.ref : Config where
  W := 6
  S := 12
  P := 20
  rtt := 16
  one_le_W := by decide
  two_W_le_S := by decide
  S_le := by decide
  one_le_P := by decide
  P_le := by decide

/-- `NOTINUSE`, the `acknum` of a packet that acknowledges nothing (R7, D4). -/
def Config.notInUse : Int := -1

/-- `ACK_SEQNUM`, the `seqnum` of an acknowledgment packet (R7, D6). -/
def Config.ackSeqnum : Int := 0

/-- `ACK_FILL`, the payload sentinel of an acknowledgment packet (R7, D7). -/
def Config.ackFill : Byte := 0x30

/-- FREE VALUE (log 4): what the `IBUF` byte at an offset holds in a sampling when the host never wrote it
(R52, U3: "any value"). The first argument is the number of the sampling, the second the offset. -/
opaque Config.freeByte : Nat → Nat → Byte

/-- FREE VALUE (log 7): what reading a slot store's entry gives when it holds `none`. No rule reads `none`
(R13); only states that no run reaches do. The first argument is the number of the sampling, the second the slot. -/
opaque Config.freePacket : Nat → Nat → Packet

/-- FREE VALUE (log 6): the byte form of a duration in a streamed `TStart` event, "which this spec leaves open"
(R82, D28). -/
opaque Config.durationBytes : Rat → List Byte

end Sys2Proof
end

