-- ==== Sys2Proof/Machine/State.lean ====
section
/-!
DEFINITION. The machine's state as plain data (R20, R22 to R36, R41), the records its steps pass round, and the state
after reset (R41, R175).
-/

namespace Sys2Proof.Machine

/-! ### Names -/

/-- The two entities; also the `side` of an event (R20, R81). -/
inductive Side where
  | A
  | B
  deriving DecidableEq, Repr

/-- The nine faults (R151). The first six are aborting, the last three are not. -/
inductive FaultName where
  /-- The word is no command. -/
  | illcmd
  /-- An operand is out of range. -/
  | badarg
  /-- A command that needs entity A's state, before `A_INIT`. -/
  | aNoinit
  /-- A second `A_INIT` since reset. -/
  | aReinit
  /-- A command that needs entity B's state, before `B_INIT`. -/
  | bNoinit
  /-- A second `B_INIT` since reset. -/
  | bReinit
  /-- Timer start requested while it runs. -/
  | tDstart
  /-- Timer stop requested while it is stopped. -/
  | tDstop
  /-- Timeout while no timer runs. -/
  | tSpur
  deriving DecidableEq, Repr

/-- The status of a response (R80). -/
inductive Status where
  | ok | windowFull | corrupt | staleAck | dupAck | outOfWindow | dupPkt | refused
  deriving DecidableEq, Repr

/-! ### Outputs and inputs of a step -/

/-- The core's requests to the host (R81). -/
inductive Event where
  /-- Hand a packet to the channel. -/
  | send (side : Side) (pkt : Packet)
  /-- Hand an in-order payload to the application. -/
  | deliver (side : Side) (payload : List Byte)
  /-- Arm the single-shot timer. -/
  | tStart (side : Side) (duration : Rat)
  /-- Disarm the timer. -/
  | tStop (side : Side)
  deriving DecidableEq, Repr

/-- The response of a command (R79): the status, the faults this command raised or flagged, the value. -/
structure Response where
  status : Status
  fr : BitVec 9
  value : Word
  deriving DecidableEq, Repr

/-- `IBUF`'s bytes by offset (R50), in canonical form: offsets strictly rising. An offset that is not listed
is a byte the host never wrote, whose value is free (R52, U3; log 4). -/
abbrev Memory := List Host.Cell

/-- A move of the host between commands (R190): a command word issued together with the image of `IBUF`
that is sampled with it (R52, R70), or `RESET` (R175). -/
inductive HostInput where
  | command (cmd : Word) (image : Memory)
  | reset
  deriving DecidableEq, Repr

/-- What a timer primitive does (R112 to R114): the timer state it leaves, the events it emits, the faults it
flags. -/
structure TimerAction where
  running : Bool
  tseq : Nat
  events : List Event
  fr : BitVec 9
  deriving DecidableEq, Repr

/-! ### The state -/

/-- A slot store (R50, R51): the entries that hold a packet, by slot index, in canonical form: indices strictly
rising. An index that is not listed holds `none`. -/
abbrev SlotStore := List (Nat × Packet)

/-- Entity A's registers, flags and store once `A_INIT` has given them values (R22, R24, R51). The flag lists have
one entry for each of the `S` slots. -/
structure Sender where
  /-- `A_BASE`. -/
  base : Nat
  /-- `A_NEXT`. -/
  next : Nat
  /-- `A_TSEQ`. -/
  tseq : Nat
  /-- `A_VALID[0..S-1]`. -/
  valid : List Bool
  /-- `A_ACKED[0..S-1]`. -/
  acked : List Bool
  /-- `A_PKT[0..S-1]`. -/
  pkts : SlotStore
  deriving DecidableEq, Repr

/-- Entity B's register, flags and store once `B_INIT` has given them values (R22, R25, R51). -/
structure Receiver where
  /-- `B_BASE`. -/
  base : Nat
  /-- `B_RCVD[0..S-1]`. -/
  rcvd : List Bool
  /-- `B_PKT[0..S-1]`. -/
  pkts : SlotStore
  deriving DecidableEq, Repr

end Sys2Proof.Machine

namespace Sys2Proof.Machine

/-- The machine. The fields from `sender` to `cntTotalAcksReceived` are the architectural state of R20; the others are
the parameters, inputs and outputs of a step that R21 names, held here because a step is a function of the
state alone. -/
structure State where
  /-- The instance's configuration (R7), which no step changes (log 1). -/
  cfg : Config
  /-- Entity A's window state. `none` is its content from reset until `A_INIT` (R22, R24, R41, R178), and `A_INITD`
  is 0 exactly then (R27; log 2). -/
  sender : Option Sender
  /-- `A_TRUN` (R26). -/
  aTrun : Bool
  /-- Entity B's window state. `none` is its content from reset until `B_INIT`, and `B_INITD` is 0 exactly then
  (R27; log 2). -/
  receiver : Option Receiver
  /-- `FAULT[8:0]`; `FAULT[31:9]` read 0 (R30). -/
  fault : BitVec 9
  /-- `CNT_PACKETS_RESENT` (R33). -/
  cntPacketsResent : Word
  /-- `CNT_NEW_ACKS` (R33). -/
  cntNewAcks : Word
  /-- `CNT_WINDOW_FULL` (R33). -/
  cntWindowFull : Word
  /-- `CNT_PACKETS_RECEIVED` (R33). -/
  cntPacketsReceived : Word
  /-- `CNT_TOTAL_ACKS_RECEIVED` (R33). -/
  cntTotalAcksReceived : Word
  /-- The host's remaining moves, the next one first (R23, R190, R191; log 3). -/
  inputs : List HostInput
  /-- The image of `IBUF` sampled with the command in execution (R52). -/
  ibuf : Memory
  /-- How many samplings there have been: it only selects the free value of an unwritten byte (U3; log 4). -/
  sample : Nat
  /-- The response of the command just executed, `none` when the last move returned none (R79; log 5). -/
  resp : Option Response
  /-- The events of the command just executed, in emission order (R81; log 5). -/
  events : List Event
  deriving DecidableEq, Repr

/-- Reasons for the machine to stop with a fault: there are none. "No fault or condition is fatal. After any
response, including `REFUSED`, the core accepts the next command" (R155), and the core has no halt (R191). The spec's own faults
are bits of `FAULT` (`FaultName`), and a step that raises one answers a next state. Raised by nobody; safe. -/
inductive Fault where
  deriving DecidableEq, Repr

/-- Reasons to give no meaning. -/
inductive Refusal where
  /-- Raised by `exec` for an instruction that has no meaning yet; every instruction has one, so by nobody. Safe. -/
  | notModelled (mnemonic : String)
  deriving DecidableEq, Repr

/-- The state after reset of an instance (R41, R175): nothing initialised, no timer, no fault, counters 0, the
window state without values, no response and no event. -/
def State.resetOf (c : Config) : State where
  cfg := c
  sender := none
  aTrun := false
  receiver := none
  fault := 0
  cntPacketsResent := 0
  cntNewAcks := 0
  cntWindowFull := 0
  cntPacketsReceived := 0
  cntTotalAcksReceived := 0
  inputs := []
  ibuf := []
  sample := 0
  resp := none
  events := []

/-- The reference instance (R9; log 1) right after reset. -/
def State.reset : State := State.resetOf Config.ref

end Sys2Proof.Machine
end

