-- ==== Sys2Proof/Machine/Ops.lean ====
section
/-!
DEFINITION. The named operations over memory and registers: patterns and integers (R11), keyed stores (R51, R54), the
input buffer (R14, R52), responses and faults (R15, R79, R152, R153), events (R82), and the host's moves (R70, R175).
-/

namespace Sys2Proof.Machine

/-! ### Patterns and integers -/

/-- `s32(p)` (R11). -/
def s32 (p : Word) : Int := p.toInt

/-- `wrap32(n)` (R11). -/
def wrap32 (n : Int) : Word := BitVec.ofInt 32 n

/-! ### Keyed stores, the shape of `IBUF` and of the slot stores -/

/-- The entry at a key; `none` where the key is not listed. -/
def storeRead {α : Type} : List (Nat × α) → Nat → Option α
  | [], _ => none
  | (k, v) :: rest, a => if k = a then some v else storeRead rest a

/-- Write an entry, keeping the keys rising. -/
def storeWrite {α : Type} : List (Nat × α) → Nat → α → List (Nat × α)
  | [], a, v => [(a, v)]
  | (k, w) :: rest, a, v =>
    if a < k then (a, v) :: (k, w) :: rest
    else if a = k then (a, v) :: rest
    else (k, w) :: storeWrite rest a v

/-- Remove a key's entry: it then holds `none` (R66). -/
def storeClear {α : Type} (st : List (Nat × α)) (a : Nat) : List (Nat × α) :=
  st.filter (fun e => e.1 != a)

/-- The canonical form of a keyed store: keys strictly rising. No entry can equal what an unlisted key reads as,
which is `none`. -/
abbrev storeWf {α : Type} (st : List (Nat × α)) : Prop := st.Pairwise (fun e f => e.1 < f.1)

/-- The canonical form of memory. -/
abbrev Memory.wf (m : Memory) : Prop := storeWf m

/-- One byte of an image; `none` where the host never wrote it. -/
def Memory.read (m : Memory) (a : Nat) : Option Byte := storeRead m a

/-- The host writes one byte of an image (R50). -/
def Memory.write (m : Memory) (a : Nat) (b : Byte) : Memory := storeWrite m a b

/-- The image whose bytes from an offset on are the given ones. -/
def Memory.ofBytesFrom : Nat → List Byte → Memory
  | _, [] => []
  | a, b :: bs => (a, b) :: Memory.ofBytesFrom (a + 1) bs

/-- The image of a byte list, offset 0 first. -/
def Memory.ofBytes (bs : List Byte) : Memory := Memory.ofBytesFrom 0 bs

/-! ### The input buffer -/

/-- The byte of the sampled image at an offset: what the host wrote, else a free value (R52, U3; log 4). -/
def ibufByte (s : State) (a : Nat) : Byte := (Memory.read s.ibuf a).getD (Config.freeByte s.sample a)

/-- The number of a byte sequence, the first byte least significant (R14, R55). -/
def leNat : List Byte → Nat
  | [] => 0
  | b :: bs => b.toNat + 256 * leNat bs

/-- `MemRead(img, addr, n)`, little-endian (R14). -/
def memRead (img : Nat → Byte) (addr n : Nat) : Nat := leNat ((List.range n).map (fun i => img (addr + i)))

/-- A 32-bit pattern's four bytes, the least significant first (R14, R55). -/
def leBytes (v : Word) : List Byte :=
  [v.extractLsb' 0 8, v.extractLsb' 8 8, v.extractLsb' 16 8, v.extractLsb' 24 8]

/-- The length of a packet image, `L = 12 + P` (R50). -/
def imageLength (c : Config) : Nat := 12 + c.P

/-- `PktUnpack(img)` (R53, R54), of an image with a `P`-byte payload. -/
def pktUnpack (P : Nat) (img : Nat → Byte) : Packet where
  seqnum := BitVec.ofNat 32 (memRead img 0 4)
  acknum := BitVec.ofNat 32 (memRead img 4 4)
  payload := (List.range P).map (fun i => img (8 + i))
  checksum := BitVec.ofNat 32 (memRead img (8 + P) 4)

/-- `PktPack(pkt)`, the bytes of the image, offset 0 first (R53, R54). -/
def pktPack (pkt : Packet) : List Byte :=
  leBytes pkt.seqnum ++ leBytes pkt.acknum ++ pkt.payload ++ leBytes pkt.checksum

/-! ### Slot stores -/

/-- `SlotRead(store, s)` (R14). A rule reads only entries that hold a packet (R13, R51); of an entry that holds
`none`, which only states no run reaches have read, the content is free (log 7). -/
def slotRead (s : State) (st : SlotStore) (k : Nat) : Packet := (storeRead st k).getD (Config.freePacket s.sample k)

/-- `SlotWrite(store, s, pkt)` (R14). -/
def slotWrite (st : SlotStore) (k : Nat) (pkt : Packet) : SlotStore := storeWrite st k pkt

/-- `SlotClear(store, s)` (R14, R66). -/
def slotClear (st : SlotStore) (k : Nat) : SlotStore := storeClear st k

/-! ### Responses and faults -/

/-- The position of a fault in `FAULT` and in `fr` (R30, R151). -/
def faultBit : FaultName → Nat
  | .illcmd => 0
  | .badarg => 1
  | .aNoinit => 2
  | .aReinit => 3
  | .bNoinit => 4
  | .bReinit => 5
  | .tDstart => 6
  | .tDstop => 7
  | .tSpur => 8

/-- `mask(NAME)`, `1 << bit` (R151). -/
def faultMask (f : FaultName) : BitVec 9 := 1#9 <<< faultBit f

/-- The code of a status (R80). -/
def statusCode : Status → BitVec 8
  | .ok => 0x00
  | .windowFull => 0x01
  | .corrupt => 0x02
  | .staleAck => 0x03
  | .dupAck => 0x04
  | .outOfWindow => 0x05
  | .dupPkt => 0x06
  | .refused => 0x80

/-- `RESP_STATUS = zext_32({fr, status})` (R79). -/
def respStatusWord (r : Response) : Word := (r.fr ++ statusCode r.status).setWidth 32

/-- The one way a command ends (R15, R79): `FAULT = FAULT_before | fr`, the response `(status, fr, value)` and the events
of the command. -/
def respond (s : State) (st : Status) (fr : BitVec 9) (value : Word) (evs : List Event) : State :=
  { s with fault := s.fault ||| fr, resp := some ⟨st, fr, value⟩, events := evs }

/-- `return (STATUS, v)` (R15) with the faults flagged on the way (R153) and the events emitted, in order. -/
def complete (s : State) (st : Status) (fr : BitVec 9) (v : Int) (evs : List Event) :
    Host.Outcome State Fault Refusal :=
  .next (respond s st fr (wrap32 v) evs)

/-- `raise Fault(NAME)` (R15, R152): the command is refused. Nothing changes but the sticky bit, no event is emitted,
the response is `(REFUSED, mask(NAME), 0)`, and the core goes on with the next command. -/
def raiseFault (f : FaultName) (s : State) : Host.Outcome State Fault Refusal :=
  .next (respond s .refused (faultMask f) 0 [])

/-! ### The byte form of events -/

/-- The kind of an event, `h[1:0]` (R82). -/
def eventKind : Event → BitVec 2
  | .send _ _ => 0
  | .deliver _ _ => 1
  | .tStart _ _ => 2
  | .tStop _ => 3

/-- An event's side (R81). -/
def eventSide : Event → Side
  | .send side _ => side
  | .deliver side _ => side
  | .tStart side _ => side
  | .tStop side => side

/-- The side bit, `h[2]` (R82). -/
def sideBit : Side → BitVec 1
  | .A => 0
  | .B => 1

/-- The header byte of an event: kind in `h[1:0]`, side in `h[2]`, `h[7:3] = 0` (R82). -/
def eventHeader (e : Event) : Byte := (sideBit (eventSide e) ++ eventKind e).setWidth 8

/-- The body of a streamed event; a duration's bytes are a free value (R82, D28; log 6). -/
def eventBody : Event → List Byte
  | .send _ pkt => pktPack pkt
  | .deliver _ payload => payload
  | .tStart _ d => Config.durationBytes d
  | .tStop _ => []

/-- The byte form of an event (R82). -/
def eventBytes (e : Event) : List Byte := eventHeader e :: eventBody e

/-! ### The host's moves -/

/-- Take the host's next command: its image of `IBUF` is sampled, once, at issue (R52, R63). -/
def takeCommand (s : State) (image : Memory) (rest : List HostInput) : State :=
  { s with inputs := rest, ibuf := image, sample := s.sample + 1 }

/-- `RESET` (R175): every piece of state at R41's value, no event and no response. The configuration is the
instance's; the host's moves to come and what it wrote in `IBUF` are its own, which "reset does not define" (R52). -/
def resetMove (s : State) (rest : List HostInput) : State :=
  { State.resetOf s.cfg with inputs := rest, ibuf := s.ibuf, sample := s.sample }

/-- With no move of the host, the core "is idle and holds its state" (R170): there is no response and no event. -/
def idleMove (s : State) : State := { s with resp := none, events := [] }

end Sys2Proof.Machine
end

