-- ==== Sys2Proof/Machine/Operands.lean ====
section
/-!
DEFINITION. Every operand form: sequence numbers and the ring functions on them (R65, R90, R91), the packet and message
operands in `IBUF` (R52, R73), the packet constructors and the checksum (R101 to R103, R132), and `RDSR`'s register numbers (R40).
-/

namespace Sys2Proof.Machine

/-! ### RINGCMP's functions (R90): over the integers, `mod` with a non-negative result (R12) -/

/-- `RingDist(x, y) = (x - y + S) mod S`: the steps forward from `y` to `x`. -/
def ringDist (c : Config) (x y : Nat) : Nat := (((x : Int) - (y : Int) + (c.S : Int)) % (c.S : Int)).toNat

/-- `RingInc(x) = (x + 1) mod S`. -/
def ringInc (c : Config) (x : Nat) : Nat := (x + 1) % c.S

/-- `RingDec(x) = (x - 1 + S) mod S`. -/
def ringDec (c : Config) (x : Nat) : Nat := (((x : Int) - 1 + (c.S : Int)) % (c.S : Int)).toNat

/-- `InWindow(x, base)`: `x` is in `[base, base+W)` on the ring. -/
def inWindow (c : Config) (x base : Nat) : Bool := decide (ringDist c x base < c.W)

/-- The operand check of the ring commands (R73, R91). -/
def isSeqnum (c : Config) (x : Nat) : Bool := decide (x < c.S)

/-- Base plus offset, `(base + i) mod S` (R65 form (c)). -/
def ringOffset (c : Config) (base i : Nat) : Nat := (base + i) % c.S

/-- A packet field as a slot index: in range only if `0 <= k < S` (R65 form (b), D11). -/
def fieldSlot (c : Config) (p : Word) : Option Nat :=
  if 0 ≤ s32 p ∧ s32 p < (c.S : Int) then some (s32 p).toNat else none

/-! ### The operands in `IBUF` -/

/-- The packet operand: `PktUnpack(IBUF)` (R52, R54). -/
def packetOperand (s : State) : Packet := pktUnpack s.cfg.P (ibufByte s)

/-- The message operand: `msg[i] = MemRead(IBUF, 8+i, 1)` for `0 <= i < P` (R52, R116). -/
def messageOperand (s : State) : List Byte := (List.range s.cfg.P).map (fun i => ibufByte s (8 + i))

/-! ### CSUM's functions -/

/-- The sum of the payload's unsigned bytes (R101). -/
def payloadSum (payload : List Byte) : Nat := (payload.map BitVec.toNat).sum

/-- `ComputeChecksum(pkt)` (R101): the `checksum` field takes no part. -/
def computeChecksum (pkt : Packet) : Word :=
  wrap32 (s32 pkt.seqnum + s32 pkt.acknum + (payloadSum pkt.payload : Int))

/-- `IsCorrupted(pkt)` (R103): the compare is on all 32 bits. -/
def isCorrupted (pkt : Packet) : Bool := pkt.checksum != computeChecksum pkt

/-- `MakePacket(seq, ack, payload)` (R102): every field set, then the checksum of that record. -/
def makePacket (seq ack : Int) (payload : List Byte) : Packet :=
  let unsealed : Packet := ⟨wrap32 seq, wrap32 ack, payload, 0⟩
  { unsealed with checksum := computeChecksum unsealed }

/-- `MakeAck(n)` (R132). -/
def makeAck (c : Config) (n : Nat) : Packet :=
  makePacket Config.ackSeqnum (n : Int) (List.replicate c.P Config.ackFill)

/-! ### `RDSR`'s operands -/

/-- The register of a read-out number (R40); `none` for a number that is not in the table. -/
def readRegOf (n : Nat) : Option ReadReg :=
  match n with
  | 0x00 => some .cfg0
  | 0x01 => some .cfg1
  | 0x02 => some .status
  | 0x03 => some .fault
  | 0x08 => some .aBase
  | 0x09 => some .aNext
  | 0x0A => some .aTseq
  | 0x0B => some .aCount
  | 0x0C => some .aSlot
  | 0x10 => some .bBase
  | 0x11 => some .bSlot
  | 0x18 => some .cntPacketsResent
  | 0x19 => some .cntNewAcks
  | 0x1A => some .cntWindowFull
  | 0x1B => some .cntPacketsReceived
  | 0x1C => some .cntTotalAcksReceived
  | _ => none

/-- The two slot registers, `0x0C` and `0x11` (R145). -/
def isSlotReg : ReadReg → Bool
  | .aSlot | .bSlot => true
  | .cfg0 | .cfg1 | .status | .fault | .aBase | .aNext | .aTseq | .aCount | .bBase | .cntPacketsResent | .cntNewAcks
  | .cntWindowFull | .cntPacketsReceived | .cntTotalAcksReceived => false

/-- `RDSR`'s check of its index operand (R73, R145): a slot index below `S` for a slot register, else 0. -/
def isReadIndex (c : Config) (r : ReadReg) (i : Nat) : Bool :=
  if isSlotReg r then decide (i < c.S) else decide (i = 0)

end Sys2Proof.Machine
end

