-- ==== Sys2Proof/Machine/Flags.lean ====
section
/-!
DEFINITION. Every flag computation: the slot flags (R24, R25), the initialised flags (R27), the timer flag and its
primitives (R26, R112 to R114), the window conditions (R111), and the read-only views `STATUS`, `FAULT`, `ERR`, `CFG0`, `CFG1`,
`A_SLOT`, `B_SLOT` (R30 to R32, R40).
-/

namespace Sys2Proof.Machine

/-! ### Slot flags -/

/-- A slot's flag. -/
def flagGet (flags : List Bool) (k : Nat) : Bool := flags.getD k false

/-- Set or clear a slot's flag. -/
def flagSet (flags : List Bool) (k : Nat) (b : Bool) : List Bool := flags.set k b

/-- All `S` flags cleared (R42). -/
def flagsClear (c : Config) : List Bool := List.replicate c.S false

/-- Valid and not acknowledged: the slots a timeout resends (R122). -/
def isUnacked (w : Sender) (k : Nat) : Bool := flagGet w.valid k && !flagGet w.acked k

/-- Valid and acknowledged: the slots the slide retires at `A_BASE` (R119). -/
def isRetirable (w : Sender) (k : Nat) : Bool := flagGet w.valid k && flagGet w.acked k

/-! ### Initialised flags -/

/-- `A_INITD` (R27): entity A's registers hold values. -/
def State.aInitd (s : State) : Bool := s.sender.isSome

/-- `B_INITD` (R27): entity B's register holds a value. -/
def State.bInitd (s : State) : Bool := s.receiver.isSome

/-! ### The window's conditions -/

/-- `A_COUNT`, `count = RingDist(A_NEXT, A_BASE)` (R34, R111). -/
def windowCount (c : Config) (w : Sender) : Nat := ringDist c w.next w.base

/-- The window is empty, the document's IDLE (R23, R111). -/
def windowEmpty (w : Sender) : Bool := decide (w.base = w.next)

/-- The next `A_OUTPUT` would be dropped (R31, R116). -/
def windowFull (c : Config) (w : Sender) : Bool := decide (c.W ≤ windowCount c w)

/-! ### The retransmission timer's primitives -/

/-- `TimerStart()` (R112): a double start changes nothing and is flagged. -/
def timerStart (c : Config) (running : Bool) (base tseq : Nat) : TimerAction :=
  if running then ⟨true, tseq, [], faultMask .tDstart⟩
  else ⟨true, base, [.tStart .A c.rtt], 0⟩

/-- `TimerStop()` (R113): a double stop changes nothing and is flagged. -/
def timerStop (running : Bool) (tseq : Nat) : TimerAction :=
  if running then ⟨false, tseq, [.tStop .A], 0⟩
  else ⟨false, tseq, [], faultMask .tDstop⟩

/-- `TimerRestart()` (R114): a stop if it runs, then a start; it never faults. -/
def timerRestart (c : Config) (running : Bool) (base : Nat) : TimerAction :=
  ⟨true, base, (if running then [.tStop .A] else []) ++ [.tStart .A c.rtt], 0⟩

/-- No timer request: timer state as before, no event, no fault. -/
def timerKeep (running : Bool) (tseq : Nat) : TimerAction := ⟨running, tseq, [], 0⟩

/-! ### The read-only views -/

/-- `FAULT`, bits 31 to 9 reading 0 (R30). -/
def faultWord (s : State) : Word := s.fault.setWidth 32

/-- The level output `ERR`, `FAULT != 0` (R30, R162). -/
def errOut (s : State) : Bool := s.fault != 0

/-- One bit of a view: the flag at position `k`. -/
def viewBit (b : Bool) (k : Nat) : Word := (BitVec.ofBool b).setWidth 32 <<< k

/-- `A_EMPTY`, `STATUS[4]`: 0 before `A_INIT` (R31). -/
def aEmpty (s : State) : Bool :=
  match s.sender with
  | none => false
  | some w => windowEmpty w

/-- `A_FULL`, `STATUS[5]`: 0 before `A_INIT` (R31). -/
def aFull (s : State) : Bool :=
  match s.sender with
  | none => false
  | some w => windowFull s.cfg w

/-- `STATUS` (R31). -/
def statusWord (s : State) : Word :=
  viewBit s.aInitd 0 ||| viewBit s.bInitd 1 ||| viewBit s.aTrun 2 ||| viewBit (errOut s) 3 ||| viewBit (aEmpty s) 4
    ||| viewBit (aFull s) 5

/-- `SEQW = ceil(log2(S))` (R7): the least width that holds every sequence number. -/
def seqWidth (c : Config) : Nat := ((List.range 13).find? (fun k => decide (c.S ≤ 2 ^ k))).getD 12

/-- `CFG0`: `W` in bits 15:0, `S` in bits 31:16 (R32). -/
def cfg0Word (c : Config) : Word := BitVec.ofNat 16 c.S ++ BitVec.ofNat 16 c.W

/-- `CFG1`: `P` in bits 15:0, `SEQW` in bits 19:16 (R32). -/
def cfg1Word (c : Config) : Word := 0#12 ++ BitVec.ofNat 4 (seqWidth c) ++ BitVec.ofNat 16 c.P

/-- `A_SLOT[b]`: bit 0 = `A_VALID[b]`, bit 1 = `A_ACKED[b]` (R40). -/
def senderSlotWord (w : Sender) (k : Nat) : Word := viewBit (flagGet w.valid k) 0 ||| viewBit (flagGet w.acked k) 1

/-- `B_SLOT[b]`: bit 0 = `B_RCVD[b]` (R40). -/
def receiverSlotWord (r : Receiver) (k : Nat) : Word := viewBit (flagGet r.rcvd k) 0

end Sys2Proof.Machine
end

