-- ==== Sys2Proof/Machine/Checksum.lean ====
section
/-!
DEFINITION. CSUM's commands: `CSUM` and `CHK` (R104, R105).
-/

namespace Sys2Proof.Machine

/-- `CSUM` (R104). -/
def execCsum (s : State) : Host.Outcome State Fault Refusal :=
  .next (respond s .ok 0 (computeChecksum (packetOperand s)) [])

/-- `CHK` (R105): the status is `OK` in both cases. -/
def execChk (s : State) : Host.Outcome State Fault Refusal :=
  complete s .ok 0 (if isCorrupted (packetOperand s) then 1 else 0) []

end Sys2Proof.Machine
end

