-- ==== Sys2Proof/Machine/Receiver.lean ====
section
/-!
DEFINITION. Entity B's commands: `B_INIT`, `B_ONPACKET`, `B_OUTPUT`, `B_TIMERINT` (R130 to R137).
-/

namespace Sys2Proof.Machine

/-- Entity B's window state after `B_INIT` (R42, R131). -/
def receiverInit (c : Config) : Receiver where
  base := 0
  rcvd := flagsClear c
  pkts := []

/-- `B_INIT` (R131): a second one since reset is refused (R130). -/
def execBInit (s : State) : Host.Outcome State Fault Refusal :=
  match s.receiver with
  | some _ => raiseFault .bReinit s
  | none => complete { s with receiver := some (receiverInit s.cfg) } .ok 0 0 []

/-- The acknowledgment for a window base: `Send(B, MakeAck(RingDec(B_BASE)))` (R132, R133, R138). -/
def ackEvent (c : Config) (base : Nat) : Event := .send .B (makeAck c (ringDec c base))

/-- Clear the slot at `B_BASE` and advance the base: one turn of the drain (R66, R134). -/
def passSlot (c : Config) (r : Receiver) : Receiver where
  base := ringInc c r.base
  rcvd := flagSet r.rcvd r.base false
  pkts := slotClear r.pkts r.base

/-- `DrainB()` (R134): while the slot at `B_BASE` is received, deliver its payload and pass it; the second component
lists the payloads in delivery order. The first argument bounds the turns: after `S` of them every slot has been passed,
so the loop of R134 takes no more. -/
def drain (s : State) : Nat → Receiver → Receiver × List (List Byte)
  | 0, r => (r, [])
  | turns + 1, r =>
    if flagGet r.rcvd r.base then
      let rest := drain s turns (passSlot s.cfg r)
      (rest.1, (slotRead s r.pkts r.base).payload :: rest.2)
    else (r, [])

/-- Buffer an in-window packet in its slot (R133). -/
def bufferPacket (r : Receiver) (q : Nat) (pkt : Packet) : Receiver :=
  { r with rcvd := flagSet r.rcvd q true, pkts := slotWrite r.pkts q pkt }

/-- The end of the window branch of `B_ONPACKET` (R133): drain, then one acknowledgment, the last event; the value is the
number of payloads delivered. -/
def drainAndAck (s : State) (r : Receiver) (st : Status) : Host.Outcome State Fault Refusal :=
  let d := drain s s.cfg.S r
  complete { s with receiver := some d.1 } st 0 (d.2.length : Int)
    (d.2.map (fun payload => .deliver .B payload) ++ [ackEvent s.cfg d.1.base])

/-- `B_ONPACKET` (R133): a corrupted packet is dropped and acknowledged, one outside the window is acknowledged and not
buffered, a first copy is stored, and a second copy is not (R156 for the order). -/
def execBOnpacket (s : State) : Host.Outcome State Fault Refusal :=
  match s.receiver with
  | none => raiseFault .bNoinit s
  | some r =>
    let pkt := packetOperand s
    if isCorrupted pkt then complete s .corrupt 0 0 [ackEvent s.cfg r.base]
    else
      let s1 := { s with cntPacketsReceived := s.cntPacketsReceived + 1 }
      match fieldSlot s.cfg pkt.seqnum with
      | none => complete s1 .outOfWindow 0 0 [ackEvent s.cfg r.base]
      | some q =>
        if !inWindow s.cfg q r.base then complete s1 .outOfWindow 0 0 [ackEvent s.cfg r.base]
        else if flagGet r.rcvd q then drainAndAck s1 r .dupPkt
        else drainAndAck s1 (bufferPacket r q pkt) .ok

/-- `B_OUTPUT` (R136): a no-op, also before `B_INIT`. -/
def execBOutput (s : State) : Host.Outcome State Fault Refusal := complete s .ok 0 0 []

/-- `B_TIMERINT` (R137): a no-op, also before `B_INIT`. -/
def execBTimerint (s : State) : Host.Outcome State Fault Refusal := complete s .ok 0 0 []

end Sys2Proof.Machine
end

