-- ==== Sys2Proof/Machine/Ring.lean ====
section
/-!
DEFINITION. RINGCMP's commands: `RDIST`, `RINC`, `RDEC`, `RINWIN` (R91 to R95).
-/

namespace Sys2Proof.Machine

/-- `RDIST x, y` (R92). -/
def execRdist (x y : Nat) (s : State) : Host.Outcome State Fault Refusal :=
  if isSeqnum s.cfg x && isSeqnum s.cfg y then complete s .ok 0 (ringDist s.cfg x y) []
  else raiseFault .badarg s

/-- `RINC x` (R93). -/
def execRinc (x : Nat) (s : State) : Host.Outcome State Fault Refusal :=
  if isSeqnum s.cfg x then complete s .ok 0 (ringInc s.cfg x) []
  else raiseFault .badarg s

/-- `RDEC x` (R94). -/
def execRdec (x : Nat) (s : State) : Host.Outcome State Fault Refusal :=
  if isSeqnum s.cfg x then complete s .ok 0 (ringDec s.cfg x) []
  else raiseFault .badarg s

/-- `RINWIN x, base` (R95). -/
def execRinwin (x base : Nat) (s : State) : Host.Outcome State Fault Refusal :=
  if isSeqnum s.cfg x && isSeqnum s.cfg base then
    complete s .ok 0 (if inWindow s.cfg x base then 1 else 0) []
  else raiseFault .badarg s

end Sys2Proof.Machine
end

