-- ==== Sys2Proof/Machine/Sender.lean ====
section
/-!
DEFINITION. Entity A's commands: `A_INIT`, `A_OUTPUT`, `A_ONACK`, `A_ONTIMEOUT` (R110 to R123).
-/

namespace Sys2Proof.Machine

/-- Entity A's window state after `A_INIT` (R42, R115). -/
def senderInit (c : Config) : Sender where
  base := 0
  next := 0
  tseq := 0
  valid := flagsClear c
  acked := flagsClear c
  pkts := []

/-- `A_INIT` (R115): a second one since reset is refused (R110). -/
def execAInit (s : State) : Host.Outcome State Fault Refusal :=
  match s.sender with
  | some _ => raiseFault .aReinit s
  | none => complete { s with sender := some (senderInit s.cfg) } .ok 0 0 []

/-- The data packet of `A_OUTPUT`: `seqnum = A_NEXT`, `acknum = NOTINUSE`, the message (R116, D5). -/
def dataPacket (s : State) (w : Sender) : Packet := makePacket (w.next : Int) Config.notInUse (messageOperand s)

/-- The timer request of an accepted `A_OUTPUT`: a start iff the window was empty before the increment (R116). -/
def outputTimer (s : State) (w : Sender) : TimerAction :=
  if windowEmpty w then timerStart s.cfg s.aTrun w.base w.tseq else timerKeep s.aTrun w.tseq

/-- The window state after an accepted `A_OUTPUT` (R116). -/
def acceptMessage (c : Config) (w : Sender) (pkt : Packet) (tseq : Nat) : Sender where
  base := w.base
  next := ringInc c w.next
  tseq := tseq
  valid := flagSet w.valid w.next true
  acked := flagSet w.acked w.next false
  pkts := slotWrite w.pkts w.next pkt

/-- `A_OUTPUT` (R116): the message is stored and sent, or dropped when the window is full. -/
def execAOutput (s : State) : Host.Outcome State Fault Refusal :=
  match s.sender with
  | none => raiseFault .aNoinit s
  | some w =>
    if windowCount s.cfg w < s.cfg.W then
      let pkt := dataPacket s w
      let t := outputTimer s w
      complete { s with sender := some (acceptMessage s.cfg w pkt t.tseq), aTrun := t.running }
        .ok t.fr (w.next : Int) (.send .A pkt :: t.events)
    else complete { s with cntWindowFull := s.cntWindowFull + 1 } .windowFull 0 0 []

/-- Retire the slot at `A_BASE` and advance the base: one turn of the slide (R66, R119). -/
def retire (c : Config) (w : Sender) : Sender :=
  { w with
    base := ringInc c w.base
    valid := flagSet w.valid w.base false
    acked := flagSet w.acked w.base false
    pkts := slotClear w.pkts w.base }

/-- The slide (R119): while the slot at `A_BASE` is valid and acknowledged, retire it; the second component counts
the retired slots. The first argument bounds the turns: after `S` of them every slot has been retired, so
the loop of R119 takes no more. -/
def slide (c : Config) : Nat → Sender → Sender × Nat
  | 0, w => (w, 0)
  | turns + 1, w =>
    if isRetirable w w.base then
      let r := slide c turns (retire c w)
      (r.1, r.2 + 1)
    else (w, 0)

/-- The timer request after a new acknowledgment, of the window after the slide: stop if it is empty, else restart
(R119, also when no slot was retired, D31). -/
def ackTimer (c : Config) (running : Bool) (w : Sender) : TimerAction :=
  if windowEmpty w then timerStop running w.tseq else timerRestart c running w.base

/-- `AcceptAck(k)` (R119): mark the slot, slide, stop or restart the timer; the value is the number of slots retired. -/
def acceptAck (s : State) (w : Sender) (k : Nat) : Host.Outcome State Fault Refusal :=
  let r := slide s.cfg s.cfg.S { w with acked := flagSet w.acked k true }
  let t := ackTimer s.cfg s.aTrun r.1
  complete
    { s with
      sender := some { r.1 with tseq := t.tseq }
      aTrun := t.running
      cntNewAcks := s.cntNewAcks + 1 }
    .ok t.fr (r.2 : Int) t.events

/-- `A_ONACK` (R118): corruption hides everything else, then stale, then duplicate (R156). -/
def execAOnack (s : State) : Host.Outcome State Fault Refusal :=
  match s.sender with
  | none => raiseFault .aNoinit s
  | some w =>
    let pkt := packetOperand s
    if isCorrupted pkt then complete s .corrupt 0 0 []
    else
      let s1 := { s with cntTotalAcksReceived := s.cntTotalAcksReceived + 1 }
      match fieldSlot s.cfg pkt.acknum with
      | none => complete s1 .staleAck 0 0 []
      | some k =>
        if !inWindow s.cfg k w.base || !flagGet w.valid k then complete s1 .staleAck 0 0 []
        else if flagGet w.acked k then complete s1 .dupAck 0 0 []
        else acceptAck s1 w k

/-- The slots a timeout resends: of the `W` slots from `A_BASE` on, in ring order, those valid and not acknowledged
(R122). -/
def resendSlots (c : Config) (w : Sender) : List Nat :=
  ((List.range c.W).map (ringOffset c w.base)).filter (isUnacked w)

/-- `A_ONTIMEOUT` (R122): the expired timer is stopped at entry, so the restart is one start; a timeout that no
running timer explains is flagged and goes on as written. -/
def execAOntimeout (s : State) : Host.Outcome State Fault Refusal :=
  match s.sender with
  | none => raiseFault .aNoinit s
  | some w =>
    let spurious : BitVec 9 := if s.aTrun then 0 else faultMask .tSpur
    let slots := resendSlots s.cfg w
    let t := timerRestart s.cfg false w.base
    complete
      { s with
        sender := some { w with tseq := t.tseq }
        aTrun := t.running
        cntPacketsResent := s.cntPacketsResent + BitVec.ofNat 32 slots.length }
      .ok (spurious ||| t.fr) (slots.length : Int)
      (slots.map (fun k => .send .A (slotRead s w.pkts k)) ++ t.events)

end Sys2Proof.Machine
end

