-- ==== Sys2Proof/Machine/System.lean ====
section
/-!
DEFINITION. The system command `RDSR` (R40, R145) and the refusal of a word that is no command (R76).
-/

namespace Sys2Proof.Machine

/-- The value of a register of entity A, which has one only after `A_INIT` (R40, R145). -/
def readSender (s : State) (value : Sender → Word) : Except FaultName Word :=
  match s.sender with
  | none => .error .aNoinit
  | some w => .ok (value w)

/-- The value of a register of entity B, which has one only after `B_INIT` (R40, R145). -/
def readReceiver (s : State) (value : Receiver → Word) : Except FaultName Word :=
  match s.receiver with
  | none => .error .bNoinit
  | some r => .ok (value r)

/-- `x[n]` with slot index `i`: the value column of R40, or the `NOINIT` fault of its last column. -/
def readReg (s : State) (reg : ReadReg) (i : Nat) : Except FaultName Word :=
  match reg with
  | .cfg0 => .ok (cfg0Word s.cfg)
  | .cfg1 => .ok (cfg1Word s.cfg)
  | .status => .ok (statusWord s)
  | .fault => .ok (faultWord s)
  | .aBase => readSender s (fun w => BitVec.ofNat 32 w.base)
  | .aNext => readSender s (fun w => BitVec.ofNat 32 w.next)
  | .aTseq => readSender s (fun w => BitVec.ofNat 32 w.tseq)
  | .aCount => readSender s (fun w => BitVec.ofNat 32 (windowCount s.cfg w))
  | .aSlot => readSender s (fun w => senderSlotWord w i)
  | .bBase => readReceiver s (fun r => BitVec.ofNat 32 r.base)
  | .bSlot => readReceiver s (fun r => receiverSlotWord r i)
  | .cntPacketsResent => .ok s.cntPacketsResent
  | .cntNewAcks => .ok s.cntNewAcks
  | .cntWindowFull => .ok s.cntWindowFull
  | .cntPacketsReceived => .ok s.cntPacketsReceived
  | .cntTotalAcksReceived => .ok s.cntTotalAcksReceived

/-- `RDSR n, i` (R145): the number and the index are checked before the initialised flag; the value is the one from
before this command. -/
def execRdsr (n i : Nat) (s : State) : Host.Outcome State Fault Refusal :=
  match readRegOf n with
  | none => raiseFault .badarg s
  | some reg =>
    if isReadIndex s.cfg reg i then
      match readReg s reg i with
      | .error f => raiseFault f s
      | .ok v => .next (respond s .ok 0 v [])
    else raiseFault .badarg s

/-- A word that is no command is refused with `ILLCMD` (R76), for either reason the decoder gives. -/
def illegalCommand (_reason : DecodeReject) (s : State) : Host.Outcome State Fault Refusal := raiseFault .illcmd s

end Sys2Proof.Machine
end

