-- ==== Sys2Proof/Machine/Dispatch.lean ====
section
/-!
DEFINITION. `exec`: each decoded command's meaning, one arm per constructor.
-/

namespace Sys2Proof.Machine

/-- The effect of a decoded command on the state in which it is executed (R70). -/
def exec (i : Instr) (s : State) : Host.Outcome State Fault Refusal :=
  match i with
  | .rdist x y => Sys2Proof.Machine.execRdist x y s
  | .rinc x => Sys2Proof.Machine.execRinc x s
  | .rdec x => Sys2Proof.Machine.execRdec x s
  | .rinwin x base => Sys2Proof.Machine.execRinwin x base s
  | .csum => Sys2Proof.Machine.execCsum s
  | .chk => Sys2Proof.Machine.execChk s
  | .aInit => Sys2Proof.Machine.execAInit s
  | .aOutput => Sys2Proof.Machine.execAOutput s
  | .aOnack => Sys2Proof.Machine.execAOnack s
  | .aOntimeout => Sys2Proof.Machine.execAOntimeout s
  | .bInit => Sys2Proof.Machine.execBInit s
  | .bOnpacket => Sys2Proof.Machine.execBOnpacket s
  | .bOutput => Sys2Proof.Machine.execBOutput s
  | .bTimerint => Sys2Proof.Machine.execBTimerint s
  | .rdsr n slot => Sys2Proof.Machine.execRdsr n slot s

end Sys2Proof.Machine
end

