-- ==== Sys2Proof/Machine/Step.lean ====
section
/-!
DEFINITION. One step: the host's next move (R70, R75, R175). The core fetches nothing (R23, R63); what stands in the
place of a fetch is the command the host issues.
-/

namespace Sys2Proof.Machine

/-- One step: the core decodes the command the host issues next and executes it to completion (R70, R75); a word
that is no command is refused (R76); a reset resets (R175); with no move the core is idle (R170). -/
def step (s : State) : Host.Outcome State Fault Refusal :=
  match s.inputs with
  | [] => .next (idleMove s)
  | .reset :: rest => .next (resetMove s rest)
  | .command cmd image :: rest =>
    match decode cmd with
    | .ok i => exec i (takeCommand s image rest)
    | .error reason => illegalCommand reason (takeCommand s image rest)

/-- The host issues the command of `nbits` bits `w` next, with what `IBUF` holds as its image (log 3). -/
def State.withFetchWord (s : State) (nbits w : Nat) : State :=
  { s with inputs := .command (BitVec.ofNat 32 (w % 2 ^ nbits)) s.ibuf :: s.inputs }

end Sys2Proof.Machine
end

