-- ==== Sys2Proof/Machine/Program.lean ====
section
/-!
DEFINITION. Command sequences as the spec writes them (R83, R84): a line's command and the image of `IBUF` given with it, and the
host's move that the line stands for. The characters of a line, beyond the mnemonic and the numbers, are no matter of the
machine.
-/

namespace Sys2Proof

/-- The mnemonic of a command (R74). -/
def Instr.mnemonic : Instr → String
  | .rdist _ _ => "RDIST"
  | .rinc _ => "RINC"
  | .rdec _ => "RDEC"
  | .rinwin _ _ => "RINWIN"
  | .csum => "CSUM"
  | .chk => "CHK"
  | .aInit => "A_INIT"
  | .aOutput => "A_OUTPUT"
  | .aOnack => "A_ONACK"
  | .aOntimeout => "A_ONTIMEOUT"
  | .bInit => "B_INIT"
  | .bOnpacket => "B_ONPACKET"
  | .bOutput => "B_OUTPUT"
  | .bTimerint => "B_TIMERINT"
  | .rdsr _ _ => "RDSR"

/-- A command's operands as they are written after the mnemonic (R72, R83). -/
def Instr.operands : Instr → List Nat
  | .rdist x y => [x, y]
  | .rinc x => [x]
  | .rdec x => [x]
  | .rinwin x base => [x, base]
  | .rdsr n i => [n, i]
  | .csum | .chk | .aInit | .aOutput | .aOnack | .aOntimeout | .bInit | .bOnpacket | .bOutput | .bTimerint => []

/-- A line's command as text: the mnemonic, then its operands separated by commas (R83), in decimal. -/
def Instr.text (i : Instr) : String :=
  match i.operands with
  | [] => i.mnemonic
  | a :: rest => i.mnemonic ++ " " ++ ", ".intercalate ((a :: rest).map toString)

namespace Machine

/-- A payload as a program writes it (R83): a text of ASCII characters, or `fill(0xNN)`. -/
inductive PayloadForm where
  | text (chars : List Char)
  | fill (b : Byte)
  deriving DecidableEq, Repr

/-- A checksum as a program writes it (R83): a number, or `auto`. -/
inductive ChecksumForm where
  | number (n : Int)
  | auto
  deriving DecidableEq, Repr

/-- The image written after the operands (R83): `pkt(seq, ack, payload, csum)`, `msg(payload)`, or nothing. -/
inductive ImageForm where
  | pkt (seq ack : Int) (payload : PayloadForm) (sum : ChecksumForm)
  | msg (payload : PayloadForm)
  | nothing
  deriving DecidableEq, Repr

/-- A line of a program (R83). -/
structure ProgramLine where
  command : Instr
  image : ImageForm
  deriving DecidableEq, Repr

/-- An error of the program (R83). No step raises one: it stops the writing of the program, not the machine. -/
inductive ProgramError where
  /-- An operand does not fit its field. -/
  | operand
  /-- A payload is not `P` bytes: "A text shorter than `P` is an error of the program, not padded". -/
  | payloadLength
  /-- A character of a text is not ASCII. -/
  | notAscii
  deriving DecidableEq, Repr

/-- The `P` bytes of a payload (R83). -/
def payloadBytes (c : Config) : PayloadForm → Except ProgramError (List Byte)
  | .fill b => .ok (List.replicate c.P b)
  | .text chars =>
    if chars.all (fun ch => decide (ch.toNat < 128)) then
      if chars.length = c.P then .ok (chars.map (fun ch => BitVec.ofNat 8 ch.toNat)) else .error .payloadLength
    else .error .notAscii

/-- The checksum field of a written packet: the number's 32-bit pattern, or for `auto` what `ComputeChecksum` gives (R83, R84). A number
that does not fit 32 bits, of which R83 does not speak, is wrapped modulo 2^32 (DESIGN CHOICE, log 10). -/
def checksumField (seq ack : Int) (payload : List Byte) : ChecksumForm → Word
  | .number n => wrap32 n
  | .auto => (makePacket seq ack payload).checksum

/-- The image of `IBUF` that a line gives (R83). A line that gives none leaves every byte unwritten (R52, U3). A number in
`pkt(seq, ack, ..., csum)` that does not fit 32 bits, of which R83 does not speak, is wrapped modulo 2^32 (DESIGN CHOICE, log 10). -/
def lineImage (c : Config) : ImageForm → Except ProgramError Memory
  | .nothing => .ok []
  | .msg payload =>
    match payloadBytes c payload with
    | .ok bytes => .ok (Memory.ofBytes (List.replicate 8 0 ++ bytes ++ List.replicate 4 0))
    | .error e => .error e
  | .pkt seq ack payload sum =>
    match payloadBytes c payload with
    | .ok bytes => .ok (Memory.ofBytes (pktPack ⟨wrap32 seq, wrap32 ack, bytes, checksumField seq ack bytes sum⟩))
    | .error e => .error e

/-- The host's move that a line stands for: exactly one command word (R84), with the line's image. Every form of image is accepted
with every command: what a line is that gives an image to a command that ignores `IBUF`, or none to one that reads it, R83 does not
say, and it is no error of the program here (DESIGN CHOICE, log 10). -/
def assembleLine (c : Config) (line : ProgramLine) : Except ProgramError HostInput :=
  if line.command.wf then
    match lineImage c line.image with
    | .ok image => .ok (.command (encode line.command) image)
    | .error e => .error e
  else .error .operand

/-- The moves of a program, one command a line (R83). -/
def assemble (c : Config) : List ProgramLine → Except ProgramError (List HostInput)
  | [] => .ok []
  | line :: rest =>
    match assembleLine c line, assemble c rest with
    | .ok move, .ok moves => .ok (move :: moves)
    | .error e, _ => .error e
    | .ok _, .error e => .error e

/-- The host issues a program's commands before its other moves. -/
def State.withProgram (s : State) (moves : List HostInput) : State := { s with inputs := moves ++ s.inputs }

end Machine

end Sys2Proof
end

