-- ==== Sys2Proof/Safety.lean ====
section
/-!
DEFINITION. What the claims speak of: the runs of slots on the ring, the invariants of R28 and R29, the canonical form of
memory, and which commands belong to which entity (R20, R168). Nothing the machine does uses these.
-/

namespace Sys2Proof.Machine

/-- Slot `k` is one of the `n` slots `base, base+1, ..., base+n-1` taken mod `S`. -/
def inRun (c : Config) (base n k : Nat) : Bool := decide (k < c.S) && decide (ringDist c k base < n)

/-- The invariants of entity A's window state (R28), with `running` the timer flag `A_TRUN`. -/
structure SenderInv (c : Config) (running : Bool) (w : Sender) : Prop where
  /-- Item 1. -/
  base_lt : w.base < c.S
  /-- Item 1. -/
  next_lt : w.next < c.S
  /-- Item 8. -/
  tseq_lt : w.tseq < c.S
  /-- There is one flag for each of the `S` slots (R24). -/
  valid_length : w.valid.length = c.S
  acked_length : w.acked.length = c.S
  /-- Item 2. -/
  count_le : windowCount c w ≤ c.W
  /-- Item 3: the valid slots are exactly the `count` slots from `A_BASE` on. -/
  valid_iff : ∀ k, flagGet w.valid k = inRun c w.base (windowCount c w) k
  /-- Item 4. -/
  acked_valid : ∀ k, flagGet w.acked k = true → flagGet w.valid k = true
  /-- Item 5. -/
  base_unacked : 0 < windowCount c w → flagGet w.acked w.base = false
  /-- Item 6: a slot holds a packet exactly when it is valid. -/
  pkt_iff : ∀ k, (storeRead w.pkts k).isSome = flagGet w.valid k
  /-- Item 6: what a packet in the store holds. -/
  pkt_seqnum : ∀ k p, storeRead w.pkts k = some p → s32 p.seqnum = (k : Int)
  pkt_acknum : ∀ k p, storeRead w.pkts k = some p → s32 p.acknum = Config.notInUse
  pkt_sealed : ∀ k p, storeRead w.pkts k = some p → isCorrupted p = false
  /-- R16: a payload is exactly `P` bytes. -/
  pkt_payload : ∀ k p, storeRead w.pkts k = some p → p.payload.length = c.P
  /-- Item 7, the unconditional direction (C13). -/
  running_of_count : 0 < windowCount c w → running = true

/-- The invariants of entity B's window state (R29). -/
structure ReceiverInv (c : Config) (r : Receiver) : Prop where
  /-- Item 1. -/
  base_lt : r.base < c.S
  /-- There is one flag for each of the `S` slots (R25). -/
  rcvd_length : r.rcvd.length = c.S
  /-- Item 2: received slots lie inside the window and never at `B_BASE` itself. -/
  rcvd_window : ∀ k, flagGet r.rcvd k = true → k < c.S ∧ 1 ≤ ringDist c k r.base ∧ ringDist c k r.base < c.W
  /-- Item 3: a slot holds a packet exactly when it is received. -/
  pkt_iff : ∀ k, (storeRead r.pkts k).isSome = flagGet r.rcvd k
  /-- Item 3: what a packet in the store holds. -/
  pkt_seqnum : ∀ k p, storeRead r.pkts k = some p → s32 p.seqnum = (k : Int)
  pkt_sealed : ∀ k p, storeRead r.pkts k = some p → isCorrupted p = false
  /-- R16: a payload is exactly `P` bytes. -/
  pkt_payload : ∀ k p, storeRead r.pkts k = some p → p.payload.length = c.P

/-- The invariants of the whole machine: R28 from `A_INIT` on, R29 from `B_INIT` on, and a stopped timer before `A_INIT`
(R41, R115: `A_TRUN` "is 0 from reset and stays 0"). -/
structure State.Inv (s : State) : Prop where
  sender : ∀ w, s.sender = some w → SenderInv s.cfg s.aTrun w
  receiver : ∀ r, s.receiver = some r → ReceiverInv s.cfg r
  stopped : s.sender = none → s.aTrun = false
  /-- R28 item 7, the converse: a running timer has packets outstanding, provided no spurious timeout was ever flagged
  (`FAULT` bit 8, `T_SPUR`, which only reset clears). -/
  count_of_running : s.fault.getLsbD 8 = false → s.aTrun = true → ∀ w, s.sender = some w → 0 < windowCount s.cfg w

/-- A host move whose image, if it has one, is in memory's canonical form. -/
def HostInput.wf : HostInput → Prop
  | .command _ image => Memory.wf image
  | .reset => True

/-- Every memory of the state is in its canonical form: `IBUF`'s sampled image and those still to come, and the two slot
stores. -/
structure State.MemoryWf (s : State) : Prop where
  ibuf : Memory.wf s.ibuf
  inputs : ∀ m ∈ s.inputs, m.wf
  sender : ∀ w, s.sender = some w → storeWf w.pkts
  receiver : ∀ r, s.receiver = some r → storeWf r.pkts

/-- The commands of entity A (R168). -/
def isSenderCommand : Instr → Bool
  | .aInit | .aOutput | .aOnack | .aOntimeout => true
  | .rdist _ _ | .rinc _ | .rdec _ | .rinwin _ _ | .csum | .chk | .bInit | .bOnpacket | .bOutput | .bTimerint
  | .rdsr _ _ => false

/-- The commands of entity B (R168). -/
def isReceiverCommand : Instr → Bool
  | .bInit | .bOnpacket | .bOutput | .bTimerint => true
  | .rdist _ _ | .rinc _ | .rdec _ | .rinwin _ _ | .csum | .chk | .aInit | .aOutput | .aOnack | .aOntimeout
  | .rdsr _ _ => false

/-- The commands that change no state but a fault bit when refused (R57). -/
def isReadOnly : Instr → Bool
  | .rdist _ _ | .rinc _ | .rdec _ | .rinwin _ _ | .csum | .chk | .bOutput | .bTimerint | .rdsr _ _ => true
  | .aInit | .aOutput | .aOnack | .aOntimeout | .bInit | .bOnpacket => false

/-- A word that is no command (R75, R76), said of its bits: an opcode outside R74's fifteen, or a must-be-zero field that is
not zero. -/
def isIllegalWord (cmd : Word) : Bool :=
  !([0x10, 0x11, 0x12, 0x13, 0x20, 0x21, 0x30, 0x31, 0x32, 0x33, 0x40, 0x41, 0x42, 0x43, 0x50].contains
      (cmd.extractLsb' 0 8).toNat) ||
    ([0x11, 0x12].contains (cmd.extractLsb' 0 8).toNat && decide (cmd.extractLsb' 20 12 ≠ 0#12)) ||
    ([0x20, 0x21, 0x30, 0x31, 0x32, 0x33, 0x40, 0x41, 0x42, 0x43].contains (cmd.extractLsb' 0 8).toNat &&
      decide (cmd.extractLsb' 8 24 ≠ 0#24))

/-- The state without the outputs of the last step, which are not architectural state (R21). -/
def State.withoutOutputs (s : State) : State := { s with resp := none, events := [] }

end Sys2Proof.Machine
end

