-- ==== Sys2Proof/Certificates/Slice0/Obligations.lean ====
section
/-!
DEFINITION. The statements about the model, formalised from the spec's numbered rules. `Machine.exec i s` is the effect of the decoded
command `i`, and `Machine.step s` the core's next step.
-/

open Sys2Proof Sys2Proof.Machine

/-! ### The command word (30_encoding.md) -/

/-- R71, R72, R74, R75: decoding the word of a well-formed command gives that command back, for every value of every operand. -/
def Obligations.DecodeOfEncodeIsTheCommand : Prop :=
  ∀ i : Instr, i.wf = true → decode (encode i) = .ok i

/-- R75: "every 32-bit word is either exactly one command or illegal": a word that decodes is the encoding of what it decodes
to, so no two words are one command, and the operands it gives fit their fields. -/
def Obligations.EncodeOfDecodeIsTheWord : Prop :=
  ∀ (cmd : Word) (i : Instr), decode cmd = .ok i → i.wf = true ∧ encode i = cmd

/-- R75 with R74's table: what each of the fifteen opcodes decodes to, and which words are illegal. -/
def Obligations.DecodingProcedure : Prop :=
  ∀ cmd : Word,
    let op := cmd.extractLsb' 0 8
    let a := (cmd.extractLsb' 8 12).toNat
    let b := (cmd.extractLsb' 20 12).toNat
    (isIllegalWord cmd = true → ∃ reason, decode cmd = .error reason) ∧
    (isIllegalWord cmd = false →
      (op = 0x10#8 → decode cmd = .ok (.rdist a b)) ∧
      (op = 0x11#8 → decode cmd = .ok (.rinc a)) ∧
      (op = 0x12#8 → decode cmd = .ok (.rdec a)) ∧
      (op = 0x13#8 → decode cmd = .ok (.rinwin a b)) ∧
      (op = 0x20#8 → decode cmd = .ok .csum) ∧
      (op = 0x21#8 → decode cmd = .ok .chk) ∧
      (op = 0x30#8 → decode cmd = .ok .aInit) ∧
      (op = 0x31#8 → decode cmd = .ok .aOutput) ∧
      (op = 0x32#8 → decode cmd = .ok .aOnack) ∧
      (op = 0x33#8 → decode cmd = .ok .aOntimeout) ∧
      (op = 0x40#8 → decode cmd = .ok .bInit) ∧
      (op = 0x41#8 → decode cmd = .ok .bOnpacket) ∧
      (op = 0x42#8 → decode cmd = .ok .bOutput) ∧
      (op = 0x43#8 → decode cmd = .ok .bTimerint) ∧
      (op = 0x50#8 → decode cmd = .ok (.rdsr a b)))

/-- The words of 95_test_vectors.md section 2.1 (V1.1 to V1.7, V1.13) decode to the commands they stand for. -/
def Obligations.WordsOfTheSpecDecode : Prop :=
  decode 0x00A00210 = .ok (.rdist 2 10) ∧ decode 0x00000B11 = .ok (.rinc 11) ∧ decode 0x00000012 = .ok (.rdec 0) ∧
  decode 0x00900213 = .ok (.rinwin 2 9) ∧ decode 0x00000020 = .ok .csum ∧ decode 0x00000033 = .ok .aOntimeout ∧
  decode 0x00000041 = .ok .bOnpacket ∧ decode 0x00400C50 = .ok (.rdsr 0x0C 4) ∧
  decode 0x00001C50 = .ok (.rdsr 0x1C 0) ∧ decode 0xFFFFFF10 = .ok (.rdist 4095 4095)

/-! ### The step (30_encoding.md, 60_exceptions.md, 70_reset_and_hazards.md) -/

/-- R70: the core decodes the command the host issues next and executes it to completion, with the image sampled with it. The move
is used up, and the sampling counter (log 4) goes on by one. -/
def Obligations.StepExecutesTheDecodedCommand : Prop :=
  ∀ (s : State) (cmd : Word) (image : Memory) (rest : List HostInput) (i : Instr),
    s.inputs = .command cmd image :: rest → decode cmd = .ok i →
    step s = exec i { s with inputs := rest, ibuf := image, sample := s.sample + 1 }

/-- R76: an illegal word changes nothing but `FAULT.ILLCMD` and is answered `(REFUSED, 0x001, 0)` with no event. That the move is used
up and the sampling counter goes on by one is the model's choice (logs 3 and 4). -/
def Obligations.IllegalWordIsRefused : Prop :=
  ∀ (s : State) (cmd : Word) (image : Memory) (rest : List HostInput),
    s.inputs = .command cmd image :: rest → isIllegalWord cmd = true →
    step s = .next { s with
      inputs := rest, ibuf := image, sample := s.sample + 1
      fault := s.fault ||| 0x001, resp := some ⟨.refused, 0x001, 0⟩, events := [] }

/-- R175, R41: `RESET` puts every piece of state at its reset value, whatever the state; it emits no event and returns no response. -/
def Obligations.ResetMoveResetsEverything : Prop :=
  ∀ (s : State) (rest : List HostInput), s.inputs = .reset :: rest →
    step s = .next {
      cfg := s.cfg, sender := none, aTrun := false, receiver := none, fault := 0
      cntPacketsResent := 0, cntNewAcks := 0, cntWindowFull := 0, cntPacketsReceived := 0, cntTotalAcksReceived := 0
      inputs := rest, ibuf := s.ibuf, sample := s.sample, resp := none, events := [] }

/-- R41: the value of every piece of state after reset, of every legal instance. -/
def Obligations.ResetValues : Prop :=
  ∀ c : Config,
    let s := State.resetOf c
    s.aInitd = false ∧ s.bInitd = false ∧ s.aTrun = false ∧ s.fault = 0 ∧ faultWord s = 0 ∧
    s.cntPacketsResent = 0 ∧ s.cntNewAcks = 0 ∧ s.cntWindowFull = 0 ∧ s.cntPacketsReceived = 0 ∧
    s.cntTotalAcksReceived = 0 ∧ s.sender = none ∧ s.receiver = none ∧ s.cfg = c ∧ statusWord s = 0 ∧ errOut s = false

/-- R170: with no command the core is idle and holds its state; there is no response and no event. That an idle step is a step is
the model's choice (log 3). -/
def Obligations.IdleCoreHoldsItsState : Prop :=
  ∀ s : State, s.inputs = [] → step s = .next { s with resp := none, events := [] }

/-- R155, R189, R191: no fault or condition is fatal and every command terminates: every step of every state answers a next state. That
there is a step without a move of the host is the model's choice (log 3). -/
def Obligations.EveryStepAnswersNext : Prop :=
  ∀ s : State, ∃ t, step s = .next t

/-- R20, R21: no step changes the configuration, and the host's moves are taken in order. -/
def Obligations.StepKeepsTheConfiguration : Prop :=
  ∀ s t : State, step s = .next t → t.cfg = s.cfg ∧ t.inputs = s.inputs.tail

/-! ### RINGCMP (40_ringcmp.md) -/

/-- R92: `RDIST` returns the distance and changes nothing but the outputs. -/
def Obligations.RdistResult : Prop :=
  ∀ (s : State) (x y : Nat), x < s.cfg.S → y < s.cfg.S →
    exec (.rdist x y) s =
      .next { s with resp := some ⟨.ok, 0, BitVec.ofNat 32 ((x + s.cfg.S - y) % s.cfg.S)⟩, events := [] }

/-- R93: `RINC` returns the next sequence number, 0 after `S - 1`. -/
def Obligations.RincResult : Prop :=
  ∀ (s : State) (x : Nat), x < s.cfg.S →
    exec (.rinc x) s =
      .next { s with resp := some ⟨.ok, 0, BitVec.ofNat 32 (if x = s.cfg.S - 1 then 0 else x + 1)⟩, events := [] }

/-- R94: `RDEC` returns the sequence number before, `S - 1` before 0. -/
def Obligations.RdecResult : Prop :=
  ∀ (s : State) (x : Nat), x < s.cfg.S →
    exec (.rdec x) s =
      .next { s with resp := some ⟨.ok, 0, BitVec.ofNat 32 (if x = 0 then s.cfg.S - 1 else x - 1)⟩, events := [] }

/-- R95: `RINWIN` returns 1 exactly for the `W` numbers `base, base+1, ..., base+W-1` taken mod `S`. -/
def Obligations.RinwinResult : Prop :=
  ∀ (s : State) (x base : Nat), x < s.cfg.S → base < s.cfg.S →
    ((∃ i < s.cfg.W, x = (base + i) % s.cfg.S) →
      exec (.rinwin x base) s = .next { s with resp := some ⟨.ok, 0, 1⟩, events := [] }) ∧
    ((∀ i < s.cfg.W, x ≠ (base + i) % s.cfg.S) →
      exec (.rinwin x base) s = .next { s with resp := some ⟨.ok, 0, 0⟩, events := [] })

/-- R91: a ring command with an operand that is no sequence number is refused with `BADARG` and writes nothing else; `BADARG` cannot
arise in the sender and receiver commands. -/
def Obligations.RingOperandOutOfRange : Prop :=
  (∀ (s : State) (i : Instr) (x y : Nat),
    ((i = .rdist x y ∨ i = .rinwin x y) ∧ (s.cfg.S ≤ x ∨ s.cfg.S ≤ y)) ∨ ((i = .rinc x ∨ i = .rdec x) ∧ s.cfg.S ≤ x) →
    exec i s = .next { s with fault := s.fault ||| 0x002, resp := some ⟨.refused, 0x002, 0⟩, events := [] }) ∧
  (∀ (s t : State) (i : Instr) (r : Response), isSenderCommand i = true ∨ isReceiverCommand i = true →
    exec i s = .next t → t.resp = some r → r.fr.getLsbD 1 = false)

/-- R96: the laws of the ring, items (1) to (7). -/
def Obligations.RingLaws : Prop :=
  ∀ (c : Config) (x y z : Nat), x < c.S → y < c.S → z < c.S →
    ringDist c x x = 0 ∧
    (x ≠ y → ringDist c x y + ringDist c y x = c.S) ∧
    ringDist c (ringInc c x) y = (ringDist c x y + 1) % c.S ∧
    (ringDist c x (ringInc c y) : Int) = ((ringDist c x y : Int) - 1) % (c.S : Int) ∧
    ringDec c (ringInc c x) = x ∧ ringInc c (ringDec c x) = x ∧
    ringDist c x z = (ringDist c x y + ringDist c y z) % c.S ∧
    (ringInc c)^[c.S] x = x ∧
    ((List.range c.S).filter (fun k => inWindow c k x)).length = c.W

/-- R98, R135 item 2: the `W` numbers behind `B_BASE` lie outside the receive window of a legal configuration, so a genuine copy
of a packet delivered before is acknowledged, with the number of what was delivered last, not buffered and not delivered again. -/
def Obligations.DeliveredPacketsAreOutOfWindow : Prop :=
  ∀ (s : State) (r : Receiver) (q : Nat), s.receiver = some r → r.base < s.cfg.S → q < s.cfg.S →
    1 ≤ ringDist s.cfg r.base q → ringDist s.cfg r.base q ≤ s.cfg.W →
    isCorrupted (packetOperand s) = false → s32 (packetOperand s).seqnum = (q : Int) →
    exec .bOnpacket s = .next { s with
      cntPacketsReceived := s.cntPacketsReceived + 1
      resp := some ⟨.outOfWindow, 0, 0⟩, events := [.send .B (makeAck s.cfg (ringDec s.cfg r.base))] }

/-! ### CSUM (41_checksum.md, 20_memory.md) -/

/-- R104, R101, R53, R55: `CSUM` returns the 32-bit wrapping sum of the two little-endian header fields, read as signed numbers,
and the `P` payload bytes, read as unsigned ones; the image's own checksum bytes take no part, and nothing else changes. -/
def Obligations.CsumResult : Prop :=
  ∀ s : State,
    let b := ibufByte s
    exec .csum s = .next { s with
      resp := some ⟨.ok, 0, BitVec.ofInt 32 ((b 3 ++ b 2 ++ b 1 ++ b 0 : BitVec 32).toInt
        + (b 7 ++ b 6 ++ b 5 ++ b 4 : BitVec 32).toInt
        + (((List.range s.cfg.P).map (fun i => ((b (8 + i)).toNat : Int))).sum))⟩
      events := [] }

/-- R105: `CHK` returns 1 if the image's little-endian checksum field differs from the checksum in any of its 32 bits, else 0; the status
is `OK` in both cases, and nothing else changes. -/
def Obligations.ChkResult : Prop :=
  ∀ s : State,
    let b := ibufByte s
    let p := s.cfg.P
    let sum := computeChecksum (packetOperand s)
    ((b (11 + p) ++ b (10 + p) ++ b (9 + p) ++ b (8 + p) : BitVec 32) = sum →
      exec .chk s = .next { s with resp := some ⟨.ok, 0, 0⟩, events := [] }) ∧
    ((b (11 + p) ++ b (10 + p) ++ b (9 + p) ++ b (8 + p) : BitVec 32) ≠ sum →
      exec .chk s = .next { s with resp := some ⟨.ok, 0, 1⟩, events := [] })

/-- R102: `MakePacket` sets every field, and its packet is not corrupted. -/
def Obligations.MakePacketIsSealed : Prop :=
  ∀ (seq ack : Int) (payload : List Byte),
    let p := makePacket seq ack payload
    p.seqnum = BitVec.ofInt 32 seq ∧ p.acknum = BitVec.ofInt 32 ack ∧ p.payload = payload ∧
    p.checksum = BitVec.ofInt 32 (seq + ack + ((payload.map (fun b => (b.toNat : Int))).sum)) ∧ isCorrupted p = false

/-- R106 item 2 (C8): from a packet that is not corrupted, changing exactly one field to a different value is always detected. -/
def Obligations.SingleFieldChangeIsDetected : Prop :=
  ∀ p : Packet, isCorrupted p = false →
    (∀ v, v ≠ p.seqnum → isCorrupted { p with seqnum := v } = true) ∧
    (∀ v, v ≠ p.acknum → isCorrupted { p with acknum := v } = true) ∧
    (∀ v, v ≠ p.checksum → isCorrupted { p with checksum := v } = true) ∧
    (∀ (k : Nat) (h : k < p.payload.length) (v : Byte), v ≠ p.payload[k] →
      isCorrupted { p with payload := p.payload.set k v } = true)

/-- R106 item 3: compensating changes go undetected: adding to one header field what another loses, a step of `seqnum` against
a payload byte, and any permutation of the payload. -/
def Obligations.CompensatingChangesGoUndetected : Prop :=
  ∀ p : Packet, isCorrupted p = false →
    (∀ d : Word, isCorrupted { p with seqnum := p.seqnum + d, acknum := p.acknum - d } = false) ∧
    (∀ (k : Nat) (h : k < p.payload.length) (d : Nat), d ≤ (p.payload[k]).toNat →
      isCorrupted { p with
        seqnum := p.seqnum + BitVec.ofNat 32 d, payload := p.payload.set k (p.payload[k] - BitVec.ofNat 8 d) } = false) ∧
    (∀ payload, payload.Perm p.payload → isCorrupted { p with payload := payload } = false)

/-- R53, R54, R55: the place of every field in an image, the header fields and the checksum little-endian; and `PktPack` and
`PktUnpack` are inverse to each other between packets with a `P`-byte payload and images of `12 + P` bytes. -/
def Obligations.PackAndUnpackAreInverse : Prop :=
  (∀ p : Packet, (pktPack p).length = 12 + p.payload.length ∧
    pktUnpack p.payload.length (fun k => (pktPack p).getD k 0) = p) ∧
  (∀ (P : Nat) (img : Nat → Byte),
    (pktUnpack P img).seqnum = img 3 ++ img 2 ++ img 1 ++ img 0 ∧
    (pktUnpack P img).acknum = img 7 ++ img 6 ++ img 5 ++ img 4 ∧
    (pktUnpack P img).payload.length = P ∧
    (∀ i < P, (pktUnpack P img).payload[i]? = some (img (8 + i))) ∧
    (pktUnpack P img).checksum = img (8 + P + 3) ++ img (8 + P + 2) ++ img (8 + P + 1) ++ img (8 + P) ∧
    pktPack (pktUnpack P img) = (List.range (12 + P)).map img)

/-- R83, R84 with R102 and R106 item 1: a line `CHK pkt(seq, ack, payload, auto)` whose payload is legal stands for one command, with an
image that holds the packet `MakePacket(seq, ack, payload)`; on it the core answers that the packet is not corrupted, and changes
nothing. The list of moves, which loses this one (log 3), the image's form and the sampling counter (log 4), and the form of a line
with numbers beyond 32 bits wrapped (log 10) are the model's choices. -/
def Obligations.AutoChecksumIsSealed : Prop :=
  ∀ (s : State) (seq ack : Int) (payload : PayloadForm) (bytes : List Byte) (rest : List HostInput),
    payloadBytes s.cfg payload = .ok bytes →
    ∃ image, lineImage s.cfg (.pkt seq ack payload .auto) = .ok image ∧
      assembleLine s.cfg ⟨.chk, .pkt seq ack payload .auto⟩ = .ok (.command (encode .chk) image) ∧
      packetOperand { s with ibuf := image } = makePacket seq ack bytes ∧
      step { s with inputs := .command (encode .chk) image :: rest } = .next { s with
        inputs := rest, ibuf := image, sample := s.sample + 1, resp := some ⟨.ok, 0, 0⟩, events := [] }

/-! ### Initialisation and guards (10_state.md, 42_sender.md, 43_receiver.md) -/

/-- R42 with R115 and R131: what `A_INIT` and `B_INIT` write after reset, and that they write nothing else but the outputs: `A_TRUN` keeps
its value, no counter is cleared, the other entity is untouched. -/
def Obligations.InitCommandsSetTheirValues : Prop :=
  ∀ s : State,
    (s.sender = none → exec .aInit s = .next { s with
      sender := some ⟨0, 0, 0, List.replicate s.cfg.S false, List.replicate s.cfg.S false, []⟩
      resp := some ⟨.ok, 0, 0⟩, events := [] }) ∧
    (s.receiver = none → exec .bInit s = .next { s with
      receiver := some ⟨0, List.replicate s.cfg.S false, []⟩
      resp := some ⟨.ok, 0, 0⟩, events := [] })

/-- R110: the guards of the sender commands; a refused command changes nothing but the fault bit and emits no event. -/
def Obligations.SenderGuards : Prop :=
  ∀ s : State,
    (s.aInitd = false → ∀ i, i = .aOutput ∨ i = .aOnack ∨ i = .aOntimeout →
      exec i s = .next { s with fault := s.fault ||| 0x004, resp := some ⟨.refused, 0x004, 0⟩, events := [] }) ∧
    (s.aInitd = true →
      exec .aInit s = .next { s with fault := s.fault ||| 0x008, resp := some ⟨.refused, 0x008, 0⟩, events := [] })

/-- R130: the guards of the receiver commands, and that the two no-ops have none and change nothing. -/
def Obligations.ReceiverGuards : Prop :=
  ∀ s : State,
    (s.bInitd = false →
      exec .bOnpacket s = .next { s with fault := s.fault ||| 0x010, resp := some ⟨.refused, 0x010, 0⟩, events := [] }) ∧
    (s.bInitd = true →
      exec .bInit s = .next { s with fault := s.fault ||| 0x020, resp := some ⟨.refused, 0x020, 0⟩, events := [] }) ∧
    (∀ i, i = .bOutput ∨ i = .bTimerint → exec i s = .next { s with resp := some ⟨.ok, 0, 0⟩, events := [] })

/-! ### Entity A (42_sender.md) -/

/-- R116, R112: an accepted `A_OUTPUT`. The packet (`seqnum` the old `A_NEXT`, `acknum` -1, the message, the checksum of that
record) is stored, marked valid and not acknowledged, and sent; `A_NEXT` advances; the timer is started iff the window was
empty, and a start while it runs only flags `T_DSTART`. Everything else is unchanged. -/
def Obligations.OutputIsAccepted : Prop :=
  ∀ (s : State) (w : Sender), s.sender = some w → ringDist s.cfg w.next w.base < s.cfg.W →
    let msg := (List.range s.cfg.P).map (fun i => ibufByte s (8 + i))
    let pkt : Packet := ⟨BitVec.ofNat 32 w.next, 0xFFFFFFFF, msg,
      BitVec.ofInt 32 ((w.next : Int) - 1 + ((msg.map (fun b => (b.toNat : Int))).sum))⟩
    let starts := w.base = w.next ∧ s.aTrun = false
    let doubleStart := w.base = w.next ∧ s.aTrun = true
    exec .aOutput s = .next { s with
      sender := some {
        base := w.base
        next := (w.next + 1) % s.cfg.S
        tseq := if starts then w.base else w.tseq
        valid := w.valid.set w.next true
        acked := w.acked.set w.next false
        pkts := slotWrite w.pkts w.next pkt }
      aTrun := if w.base = w.next then true else s.aTrun
      fault := if doubleStart then s.fault ||| 0x040 else s.fault
      resp := some ⟨.ok, if doubleStart then 0x040 else 0, BitVec.ofNat 32 w.next⟩
      events := .send .A pkt :: (if starts then [.tStart .A s.cfg.rtt] else []) }

/-- R116, R117 item 1: with the window full the message is dropped: only `CNT_WINDOW_FULL` moves. -/
def Obligations.OutputIntoAFullWindowIsDropped : Prop :=
  ∀ (s : State) (w : Sender), s.sender = some w → s.cfg.W ≤ ringDist s.cfg w.next w.base →
    exec .aOutput s = .next { s with
      cntWindowFull := s.cntWindowFull + 1, resp := some ⟨.windowFull, 0, 0⟩, events := [] }

/-- R118, R156: the early exits of `A_ONACK` in their order: corrupted, stale (no slot has the number, or it is out of the window,
or not valid), duplicate. Only the counter of uncorrupted acknowledgments moves, and only on the last two. -/
def Obligations.AckEarlyExits : Prop :=
  ∀ (s : State) (w : Sender), s.sender = some w →
    let pkt := packetOperand s
    let k := pkt.acknum.toInt
    let stale := k < 0 ∨ (s.cfg.S : Int) ≤ k ∨ s.cfg.W ≤ ringDist s.cfg k.toNat w.base ∨ flagGet w.valid k.toNat = false
    (pkt.checksum ≠ computeChecksum pkt →
      exec .aOnack s = .next { s with resp := some ⟨.corrupt, 0, 0⟩, events := [] }) ∧
    (pkt.checksum = computeChecksum pkt → stale →
      exec .aOnack s = .next { s with
        cntTotalAcksReceived := s.cntTotalAcksReceived + 1, resp := some ⟨.staleAck, 0, 0⟩, events := [] }) ∧
    (pkt.checksum = computeChecksum pkt → ¬ stale → flagGet w.acked k.toNat = true →
      exec .aOnack s = .next { s with
        cntTotalAcksReceived := s.cntTotalAcksReceived + 1, resp := some ⟨.dupAck, 0, 0⟩, events := [] })

/-- R119, R113, R114, R66: a new acknowledgment of slot `k`. The slot is marked; then the longest run of valid and
acknowledged slots from `A_BASE` on is retired (flags cleared, store entry `none`) and `A_BASE` advances past it; the timer is
stopped if the window became empty (a double stop only flags `T_DSTOP`) and restarted otherwise, also when nothing was
retired. Everything else is unchanged. -/
def Obligations.NewAckIsAccepted : Prop :=
  ∀ (s : State) (w : Sender) (k : Nat), s.sender = some w →
    w.base < s.cfg.S → w.valid.length = s.cfg.S → w.acked.length = s.cfg.S →
    (packetOperand s).checksum = computeChecksum (packetOperand s) → (packetOperand s).acknum.toInt = (k : Int) →
    k < s.cfg.S → ringDist s.cfg k w.base < s.cfg.W → flagGet w.valid k = true → flagGet w.acked k = false →
    ∃ (n : Nat) (v : Sender),
      n ≤ s.cfg.S ∧ v.base = (w.base + n) % s.cfg.S ∧ v.next = w.next ∧
      v.valid.length = s.cfg.S ∧ v.acked.length = s.cfg.S ∧
      (∀ i < n, flagGet w.valid ((w.base + i) % s.cfg.S) = true ∧
        ((w.base + i) % s.cfg.S = k ∨ flagGet w.acked ((w.base + i) % s.cfg.S) = true)) ∧
      ¬ (flagGet v.valid v.base = true ∧ flagGet v.acked v.base = true) ∧
      (∀ j, flagGet v.valid j = (flagGet w.valid j && !inRun s.cfg w.base n j)) ∧
      (∀ j, flagGet v.acked j = ((decide (j = k) || flagGet w.acked j) && !inRun s.cfg w.base n j)) ∧
      (∀ j, storeRead v.pkts j = if inRun s.cfg w.base n j then none else storeRead w.pkts j) ∧
      v.tseq = (if v.base = w.next then w.tseq else v.base) ∧
      exec .aOnack s = .next { s with
        sender := some v
        aTrun := decide (v.base ≠ w.next)
        cntTotalAcksReceived := s.cntTotalAcksReceived + 1
        cntNewAcks := s.cntNewAcks + 1
        fault := if v.base = w.next ∧ s.aTrun = false then s.fault ||| 0x080 else s.fault
        resp := some ⟨.ok, if v.base = w.next ∧ s.aTrun = false then 0x080 else 0, BitVec.ofNat 32 n⟩
        events := (if s.aTrun then [.tStop .A] else []) ++ (if v.base = w.next then [] else [.tStart .A s.cfg.rtt]) }

/-- R122, R114: `A_ONTIMEOUT` resends the valid, not acknowledged slots of the window in ring order from `A_BASE`, counts them, and
starts the timer, whatever the window holds; a spurious one flags `T_SPUR` and goes on. No window register but `A_TSEQ` and no
flag changes. -/
def Obligations.TimeoutResends : Prop :=
  ∀ (s : State) (w : Sender), s.sender = some w →
    let slots := ((List.range s.cfg.W).map (fun i => (w.base + i) % s.cfg.S)).filter
      (fun k => flagGet w.valid k && !flagGet w.acked k)
    exec .aOntimeout s = .next { s with
      sender := some { w with tseq := w.base }
      aTrun := true
      cntPacketsResent := s.cntPacketsResent + BitVec.ofNat 32 slots.length
      fault := if s.aTrun then s.fault else s.fault ||| 0x100
      resp := some ⟨.ok, if s.aTrun then 0 else 0x100, BitVec.ofNat 32 slots.length⟩
      events := slots.map (fun k => .send .A (slotRead s w.pkts k)) ++ [.tStart .A s.cfg.rtt] }

/-- R122, R123 items 1 to 3, under the invariants of R28: with packets outstanding, what a timeout sends are stored packets, bit for bit;
the first is the one at `A_BASE`, there are at most `W`, and the one timer event is the last event. -/
def Obligations.TimeoutSendsStoredPackets : Prop :=
  ∀ (s : State) (w : Sender), s.Inv → s.sender = some w → 0 < windowCount s.cfg w →
    ∃ (first : Packet) (more : List Packet) (t : State), exec .aOntimeout s = .next t ∧
      storeRead w.pkts w.base = some first ∧ more.length < s.cfg.W ∧
      (∀ p ∈ more, ∃ k, storeRead w.pkts k = some p ∧ flagGet w.acked k = false) ∧
      t.events = (first :: more).map (fun p => .send .A p) ++ [.tStart .A s.cfg.rtt]

/-- R124 item 1, R28 item 3: under the invariants at most `W` slots are valid, so the valid unacknowledged slots never exceed `W`. -/
def Obligations.AtMostWindowOutstanding : Prop :=
  ∀ (s : State) (w : Sender), s.Inv → s.sender = some w →
    ((List.range s.cfg.S).filter (fun k => flagGet w.valid k)).length = windowCount s.cfg w ∧
    ((List.range s.cfg.S).filter (fun k => flagGet w.valid k && !flagGet w.acked k)).length ≤ s.cfg.W

/-- R121: the same uncorrupted acknowledgment executed twice in a row: the second is `DUP_ACK` or `STALE_ACK`, emits no event
and changes nothing but `CNT_TOTAL_ACKS_RECEIVED`. A corrupted one is `CORRUPT` again and changes nothing at all. -/
def Obligations.AckIsIdempotent : Prop :=
  ∀ (s t : State) (w : Sender), s.Inv → s.sender = some w → exec .aOnack s = .next t →
    (isCorrupted (packetOperand s) = false → ∃ st, (st = .dupAck ∨ st = .staleAck) ∧
      exec .aOnack t = .next { t with
        cntTotalAcksReceived := t.cntTotalAcksReceived + 1, resp := some ⟨st, 0, 0⟩, events := [] }) ∧
    (isCorrupted (packetOperand s) = true → exec .aOnack t = .next t)

/-- R113, C13: from a state of the invariants no step flags `T_DSTOP`: neither in `FAULT`, nor in a response, be the sticky bit set
already or not. -/
def Obligations.DoubleStopIsUnreachable : Prop :=
  ∀ s t : State, s.Inv → step s = .next t →
    (t.fault.getLsbD 7 = true → s.fault.getLsbD 7 = true) ∧ (∀ r, t.resp = some r → r.fr.getLsbD 7 = false)

/-! ### Entity B (43_receiver.md) -/

/-- R133: a corrupted packet changes nothing at all, a packet outside the window (or with a number that is no sequence number) only the
counter; both are answered with the acknowledgment of what was delivered last. -/
def Obligations.PacketIsDropped : Prop :=
  ∀ (s : State) (r : Receiver), s.receiver = some r →
    let pkt := packetOperand s
    let q := pkt.seqnum.toInt
    let ack := makeAck s.cfg (ringDec s.cfg r.base)
    (pkt.checksum ≠ computeChecksum pkt →
      exec .bOnpacket s = .next { s with resp := some ⟨.corrupt, 0, 0⟩, events := [.send .B ack] }) ∧
    (pkt.checksum = computeChecksum pkt →
      q < 0 ∨ (s.cfg.S : Int) ≤ q ∨ s.cfg.W ≤ ringDist s.cfg q.toNat r.base →
      exec .bOnpacket s = .next { s with
        cntPacketsReceived := s.cntPacketsReceived + 1
        resp := some ⟨.outOfWindow, 0, 0⟩, events := [.send .B ack] })

/-- R133, R134, R66: an in-window packet. A first copy is stored in its slot and a second copy is not; then the longest received run from
`B_BASE` on is delivered in ring order, each slot's payload once, its flag cleared and its entry `none`, and `B_BASE` advances
past it; one acknowledgment, of `B_BASE` after the drain, is the last event. Everything else is unchanged. -/
def Obligations.InWindowPacketIsDrained : Prop :=
  ∀ (s : State) (r : Receiver) (q : Nat), s.receiver = some r →
    r.base < s.cfg.S → r.rcvd.length = s.cfg.S →
    (packetOperand s).checksum = computeChecksum (packetOperand s) → (packetOperand s).seqnum.toInt = (q : Int) →
    q < s.cfg.S → ringDist s.cfg q r.base < s.cfg.W →
    let dup := flagGet r.rcvd q
    let store := if dup then r.pkts else slotWrite r.pkts q (packetOperand s)
    ∃ (d : Nat) (v : Receiver),
      d ≤ s.cfg.S ∧ v.base = (r.base + d) % s.cfg.S ∧ v.rcvd.length = s.cfg.S ∧
      (∀ i < d, (r.base + i) % s.cfg.S = q ∨ flagGet r.rcvd ((r.base + i) % s.cfg.S) = true) ∧
      flagGet v.rcvd v.base = false ∧
      (∀ j, flagGet v.rcvd j = ((decide (j = q) || flagGet r.rcvd j) && !inRun s.cfg r.base d j)) ∧
      (∀ j, storeRead v.pkts j = if inRun s.cfg r.base d j then none else storeRead store j) ∧
      exec .bOnpacket s = .next { s with
        receiver := some v
        cntPacketsReceived := s.cntPacketsReceived + 1
        resp := some ⟨if dup then .dupPkt else .ok, 0, BitVec.ofNat 32 d⟩
        events := (List.range d).map (fun i => .deliver .B (slotRead s store ((r.base + i) % s.cfg.S)).payload)
          ++ [.send .B (makeAck s.cfg (ringDec s.cfg v.base))] }

/-- R132, R138: every `B_ONPACKET` that is not refused emits exactly one `Send(B, .)`, its last event, with `seqnum` 0, `acknum` =
`RingDec(B_BASE)` for `B_BASE` after the command, `P` bytes `0x30` and that record's checksum; its other events are deliveries. -/
def Obligations.EveryPacketIsAcknowledgedOnce : Prop :=
  ∀ (s : State) (r : Receiver), s.receiver = some r →
    ∃ (t : State) (v : Receiver) (payloads : List (List Byte)), exec .bOnpacket s = .next t ∧ t.receiver = some v ∧
      t.events = payloads.map (fun p => .deliver .B p) ++
        [.send .B ⟨0, BitVec.ofNat 32 (ringDec s.cfg v.base), List.replicate s.cfg.P 0x30,
          BitVec.ofNat 32 (ringDec s.cfg v.base + 48 * s.cfg.P)⟩]

/-! ### `RDSR` and the read-only views (44_system.md, 10_state.md) -/

/-- R40, R145: the value `RDSR` returns for every number of the table, when the entity it needs is initialised; nothing else changes. -/
def Obligations.RdsrReadsTheTable : Prop :=
  ∀ s : State,
    let reads (n i : Nat) (v : Word) := exec (.rdsr n i) s = .next { s with resp := some ⟨.ok, 0, v⟩, events := [] }
    reads 0x00 0 (cfg0Word s.cfg) ∧ reads 0x01 0 (cfg1Word s.cfg) ∧ reads 0x02 0 (statusWord s) ∧
    reads 0x03 0 (s.fault.setWidth 32) ∧
    (∀ w, s.sender = some w →
      reads 0x08 0 (BitVec.ofNat 32 w.base) ∧ reads 0x09 0 (BitVec.ofNat 32 w.next) ∧ reads 0x0A 0 (BitVec.ofNat 32 w.tseq) ∧
      reads 0x0B 0 (BitVec.ofNat 32 (ringDist s.cfg w.next w.base)) ∧
      (∀ b < s.cfg.S, reads 0x0C b
        (BitVec.ofNat 32 ((flagGet w.valid b).toNat + 2 * (flagGet w.acked b).toNat)))) ∧
    (∀ r, s.receiver = some r →
      reads 0x10 0 (BitVec.ofNat 32 r.base) ∧
      (∀ b < s.cfg.S, reads 0x11 b (BitVec.ofNat 32 (flagGet r.rcvd b).toNat))) ∧
    reads 0x18 0 s.cntPacketsResent ∧ reads 0x19 0 s.cntNewAcks ∧ reads 0x1A 0 s.cntWindowFull ∧
    reads 0x1B 0 s.cntPacketsReceived ∧ reads 0x1C 0 s.cntTotalAcksReceived

/-- R145, R156: what `RDSR` refuses, the number and the index before the initialised flags; nothing but the fault bit changes. -/
def Obligations.RdsrRefusals : Prop :=
  ∀ (s : State) (n i : Nat),
    let refuses (m : BitVec 9) :=
      exec (.rdsr n i) s = .next { s with fault := s.fault ||| m, resp := some ⟨.refused, m, 0⟩, events := [] }
    let slotreg := n = 0x0C ∨ n = 0x11
    (n ∉ [0x00, 0x01, 0x02, 0x03, 0x08, 0x09, 0x0A, 0x0B, 0x0C, 0x10, 0x11, 0x18, 0x19, 0x1A, 0x1B, 0x1C] →
      refuses 0x002) ∧
    (slotreg → s.cfg.S ≤ i → refuses 0x002) ∧
    (¬ slotreg → i ≠ 0 → refuses 0x002) ∧
    (n ∈ [0x08, 0x09, 0x0A, 0x0B, 0x0C] → (slotreg ∧ i < s.cfg.S ∨ ¬ slotreg ∧ i = 0) → s.aInitd = false →
      refuses 0x004) ∧
    (n ∈ [0x10, 0x11] → (slotreg ∧ i < s.cfg.S ∨ ¬ slotreg ∧ i = 0) → s.bInitd = false → refuses 0x010)

/-- R31: the bits of `STATUS`, and its value after reset. -/
def Obligations.StatusBits : Prop :=
  ∀ s : State,
    (statusWord s).getLsbD 0 = s.aInitd ∧ (statusWord s).getLsbD 1 = s.bInitd ∧ (statusWord s).getLsbD 2 = s.aTrun ∧
    (statusWord s).getLsbD 3 = decide (s.fault ≠ 0) ∧
    (∀ w, s.sender = some w →
      (statusWord s).getLsbD 4 = decide (w.base = w.next) ∧
      (statusWord s).getLsbD 5 = decide (s.cfg.W ≤ ringDist s.cfg w.next w.base)) ∧
    (s.sender = none → (statusWord s).getLsbD 4 = false ∧ (statusWord s).getLsbD 5 = false) ∧
    (∀ k, 6 ≤ k → (statusWord s).getLsbD k = false) ∧
    (∀ c, statusWord (State.resetOf c) = 0)

/-- R32, R7: the fields of `CFG0` and `CFG1`; `SEQW` is the least width that holds every sequence number, `ceil(log2(S))`. -/
def Obligations.ConfigurationWords : Prop :=
  ∀ c : Config,
    ((cfg0Word c).extractLsb' 0 16).toNat = c.W ∧ ((cfg0Word c).extractLsb' 16 16).toNat = c.S ∧
    ((cfg1Word c).extractLsb' 0 16).toNat = c.P ∧ (cfg1Word c).extractLsb' 20 12 = 0 ∧
    c.S ≤ 2 ^ ((cfg1Word c).extractLsb' 16 4).toNat ∧ 2 ^ ((cfg1Word c).extractLsb' 16 4).toNat < 2 * c.S

/-! ### Faults, responses and events (60_exceptions.md, 30_encoding.md) -/

/-- R79, R60: every command completes, in every state, with one response, and `FAULT` becomes `FAULT_before | fr`. R21, R52: no command
writes the configuration or the image, which are no state of the core. That the configuration stands in the state (log 1), and so do
the host's moves to come (log 3), the sampled image and the sampling counter (log 4), which no command writes either, is the model's choice. -/
def Obligations.EveryCommandResponds : Prop :=
  ∀ (i : Instr) (s : State), ∃ (t : State) (r : Response), exec i s = .next t ∧ t.resp = some r ∧
    t.fault = s.fault ||| r.fr ∧ t.cfg = s.cfg ∧ t.ibuf = s.ibuf ∧ t.inputs = s.inputs ∧ t.sample = s.sample

/-- R79, R80: the packed form of a response: `status` in bits 7:0, `fr` in bits 16:8, 0 above; and the code of every status. -/
def Obligations.ResponsePacking : Prop :=
  (∀ r : Response,
    (respStatusWord r).extractLsb' 0 8 = statusCode r.status ∧ (respStatusWord r).extractLsb' 8 9 = r.fr ∧
    (respStatusWord r).extractLsb' 17 15 = 0) ∧
  statusCode .ok = 0x00 ∧ statusCode .windowFull = 0x01 ∧ statusCode .corrupt = 0x02 ∧ statusCode .staleAck = 0x03 ∧
  statusCode .dupAck = 0x04 ∧ statusCode .outOfWindow = 0x05 ∧ statusCode .dupPkt = 0x06 ∧ statusCode .refused = 0x80

/-- R152: a refused command raised exactly one aborting fault; nothing changed but that sticky bit, no event was emitted, the value
is 0, and the core goes on with the next command. -/
def Obligations.RefusedCommandChangesNothing : Prop :=
  ∀ (i : Instr) (s t : State) (r : Response), exec i s = .next t → t.resp = some r → r.status = .refused →
    (∃ m ∈ [0x001#9, 0x002#9, 0x004#9, 0x008#9, 0x010#9, 0x020#9],
      t = { s with fault := s.fault ||| m, resp := some ⟨.refused, m, 0⟩, events := [] }) ∧
    ∃ u, step t = .next u

/-- R153, R151: a command that is not refused flags at most one fault, the timer fault of that command: `A_OUTPUT` only `T_DSTART`,
`A_ONACK` only `T_DSTOP`, `A_ONTIMEOUT` only `T_SPUR`. -/
def Obligations.TimerFaultsOfEachCommand : Prop :=
  ∀ (i : Instr) (s t : State) (r : Response), exec i s = .next t → t.resp = some r → r.status ≠ .refused →
    r.fr = 0 ∨ (i = .aOutput ∧ r.fr = 0x040) ∨ (i = .aOnack ∧ r.fr = 0x080) ∨ (i = .aOntimeout ∧ r.fr = 0x100)

/-- R30, R146, R175: faults are sticky and nothing but reset clears a fault or uninitialises an entity. That a reset is a move in the
list `inputs` is the model's choice (log 3). -/
def Obligations.OnlyResetClearsFaults : Prop :=
  ∀ s t : State, step s = .next t → (∀ rest, s.inputs ≠ .reset :: rest) →
    (∀ k, s.fault.getLsbD k = true → t.fault.getLsbD k = true) ∧
    (s.aInitd = true → t.aInitd = true) ∧ (s.bInitd = true → t.bInitd = true)

/-- R57 with R92 to R95, R104, R105 and R145: the ring commands, `CSUM`, `CHK` and `RDSR` change no state but a fault bit when refused,
and emit no event; R130, R136 and R137 say the same of the two no-ops, which are never refused. -/
def Obligations.ReadOnlyCommandsWriteNothing : Prop :=
  ∀ (i : Instr) (s t : State), isReadOnly i = true → exec i s = .next t →
    t = { s with fault := t.fault, resp := t.resp, events := [] } ∧
    (∀ r, t.resp = some r → r.status ≠ .refused → t.fault = s.fault)

/-- R81: which command emits which event, and with which side and duration. -/
def Obligations.EventsOfEachCommand : Prop :=
  ∀ (i : Instr) (s t : State) (e : Event), exec i s = .next t → e ∈ t.events →
    (∃ p, e = .send .A p ∧ (i = .aOutput ∨ i = .aOntimeout)) ∨
    (∃ p, e = .send .B p ∧ i = .bOnpacket) ∨
    (∃ p, e = .deliver .B p ∧ i = .bOnpacket) ∨
    (e = .tStart .A s.cfg.rtt ∧ (i = .aOutput ∨ i = .aOnack ∨ i = .aOntimeout)) ∨
    (e = .tStop .A ∧ i = .aOnack)

/-- R82: the byte form of every event the core emits; the bytes of a duration are left open. -/
def Obligations.EventByteForm : Prop :=
  ∀ (p : Packet) (payload : List Byte) (d : Rat),
    eventBytes (.send .A p) = 0x00 :: pktPack p ∧ eventBytes (.send .B p) = 0x04 :: pktPack p ∧
    eventBytes (.deliver .B payload) = 0x05 :: payload ∧ (eventBytes (.tStart .A d)).head? = some 0x02 ∧
    eventBytes (.tStop .A) = [0x03]

/-! ### The two entities (10_state.md, 60_exceptions.md) -/

/-- R20, R33, R151: no command of A changes a register, counter or fault of B, and the reverse; neither raises a fault of neither. -/
def Obligations.EntitiesShareNothing : Prop :=
  ∀ (i : Instr) (s t : State), exec i s = .next t →
    (isSenderCommand i = true → t.receiver = s.receiver ∧ t.cntPacketsReceived = s.cntPacketsReceived ∧
      t.fault &&& 0x033 = s.fault &&& 0x033) ∧
    (isReceiverCommand i = true → t.sender = s.sender ∧ t.aTrun = s.aTrun ∧
      t.cntPacketsResent = s.cntPacketsResent ∧ t.cntNewAcks = s.cntNewAcks ∧ t.cntWindowFull = s.cntWindowFull ∧
      t.cntTotalAcksReceived = s.cntTotalAcksReceived ∧ t.fault &&& 0x1CF = s.fault &&& 0x1CF)

/-- R168: a command of A and a command of B commute: executed in either order, each with its own image of `IBUF`, they give the same
state, and each gives the same response and the same events. -/
def Obligations.EntitiesCommute : Prop :=
  ∀ (a b : Instr) (s : State) (imageA imageB : Memory), isSenderCommand a = true → isReceiverCommand b = true →
    ∃ t1 u1 t2 u2,
      exec a { s with ibuf := imageA } = .next t1 ∧ exec b { t1 with ibuf := imageB } = .next u1 ∧
      exec b { s with ibuf := imageB } = .next t2 ∧ exec a { t2 with ibuf := imageA } = .next u2 ∧
      { u1.withoutOutputs with ibuf := imageA } = u2.withoutOutputs ∧
      u2.resp = t1.resp ∧ u2.events = t1.events ∧ u1.resp = t2.resp ∧ u1.events = t2.events

/-! ### Stores and invariants (20_memory.md, 10_state.md) -/

/-- R14, R51, R66: a slot store's read gives what was last written to that slot, `none` after it was cleared, and every other slot is
as before; the same for a byte of `IBUF`. -/
def Obligations.StoresReadWhatWasWritten : Prop :=
  (∀ (st : SlotStore) (k : Nat) (p : Packet),
    storeRead (slotWrite st k p) k = some p ∧ storeRead (slotClear st k) k = none ∧
    ∀ j, j ≠ k → storeRead (slotWrite st k p) j = storeRead st j ∧ storeRead (slotClear st k) j = storeRead st j) ∧
  (∀ (m : Memory) (a : Nat) (b : Byte),
    (m.write a b).read a = some b ∧ ∀ a', a' ≠ a → (m.write a b).read a' = m.read a')

/-- R28, R29, C13: every step of the machine keeps the invariants of both entities, all items of both rules, from every state that has
them. -/
def Obligations.StepKeepsTheInvariants : Prop :=
  ∀ s t : State, s.Inv → step s = .next t → t.Inv

/-- Every step keeps every memory in its canonical form (the model's representation, logs 4 and 7). -/
def Obligations.StepKeepsMemoryCanonical : Prop :=
  ∀ s t : State, s.MemoryWf → step s = .next t → t.MemoryWf

/-- R41 with R28 and R29: the state after reset has the invariants, for every legal instance. Its memories are in canonical form too,
which is the model's choice: the form of `IBUF` and that it lists nothing at reset (log 4), the form of the slot stores (log 7), and
that no move is listed (log 3). -/
def Obligations.ResetHasTheInvariants : Prop :=
  ∀ c : Config, (State.resetOf c).Inv ∧ (State.resetOf c).MemoryWf
end

