-- ==== Sys2Proof/Laws/Checksum.lean ====
section
/-!
SUPPORT. The checksum as a sum of 32-bit words, and little-endian numbers.
-/

namespace Sys2Proof.Machine

theorem wrap32_add (m n : Int) : wrap32 (m + n) = wrap32 m + wrap32 n := by simp [wrap32, BitVec.ofInt_add]

@[simp] theorem wrap32_s32 (p : Word) : wrap32 (s32 p) = p := by simp [wrap32, s32]

@[simp] theorem wrap32_natCast (n : Nat) : wrap32 (n : Int) = BitVec.ofNat 32 n := by
  simp [wrap32]

@[simp] theorem wrap32_zero : wrap32 0 = 0 := by decide

@[simp] theorem wrap32_one : wrap32 1 = 1 := by decide

/-- The checksum is a sum in 32-bit arithmetic: whether the header fields are read as signed or unsigned makes no difference. -/
theorem computeChecksum_eq (p : Packet) :
    computeChecksum p = p.seqnum + p.acknum + BitVec.ofNat 32 (payloadSum p.payload) := by
  simp [computeChecksum, wrap32_add]

theorem isCorrupted_eq_false {p : Packet} : isCorrupted p = false ↔ p.checksum = computeChecksum p := by
  simp [isCorrupted]

theorem isCorrupted_eq_true {p : Packet} : isCorrupted p = true ↔ p.checksum ≠ computeChecksum p := by
  simp [isCorrupted]

/-- The checksum takes no part in its own sum. -/
theorem isCorrupted_makePacket (seq ack : Int) (payload : List Byte) :
    isCorrupted (makePacket seq ack payload) = false := by
  simp [isCorrupted, makePacket, computeChecksum]

@[simp] theorem makePacket_seqnum (seq ack : Int) (pl : List Byte) : (makePacket seq ack pl).seqnum = wrap32 seq := rfl
@[simp] theorem makePacket_acknum (seq ack : Int) (pl : List Byte) : (makePacket seq ack pl).acknum = wrap32 ack := rfl
@[simp] theorem makePacket_payload (seq ack : Int) (pl : List Byte) : (makePacket seq ack pl).payload = pl := rfl
theorem makePacket_checksum (seq ack : Int) (pl : List Byte) :
    (makePacket seq ack pl).checksum = wrap32 (seq + ack + (payloadSum pl : Int)) := by
  show computeChecksum ⟨wrap32 seq, wrap32 ack, pl, 0⟩ = _
  simp [computeChecksum_eq, wrap32_add]

theorem payloadSum_perm {l m : List Byte} (h : l.Perm m) : payloadSum l = payloadSum m :=
  List.Perm.sum_eq (h.map _)

/-- Replacing one payload byte moves the sum by the difference. -/
theorem payloadSum_set (l : List Byte) (k : Nat) (h : k < l.length) (v : Byte) :
    payloadSum (l.set k v) + (l[k]).toNat = payloadSum l + v.toNat := by
  induction l generalizing k with
  | nil => simp at h
  | cons b l ih =>
    cases k with
    | zero => simp [payloadSum]; omega
    | succ k =>
      have := ih k (by simpa using h)
      simp only [payloadSum, List.set_cons_succ, List.map_cons, List.sum_cons, List.getElem_cons_succ] at this ⊢
      omega

/-- The number of four bytes, the first least significant, is their concatenation. -/
theorem memRead_four (img : Nat → Byte) (a : Nat) :
    BitVec.ofNat 32 (memRead img a 4) = (img (a + 3) ++ img (a + 2) ++ img (a + 1) ++ img a : BitVec 32) := by
  apply BitVec.eq_of_toNat_eq
  have h0 := (img a).isLt; have h1 := (img (a + 1)).isLt; have h2 := (img (a + 2)).isLt; have h3 := (img (a + 3)).isLt
  simp only [memRead, List.range, List.range.loop, List.map_cons, List.map_nil, leNat, BitVec.toNat_ofNat,
    BitVec.toNat_append, Nat.add_zero]
  rw [← Nat.shiftLeft_add_eq_or_of_lt h2, ← Nat.shiftLeft_add_eq_or_of_lt h1, ← Nat.shiftLeft_add_eq_or_of_lt h0]
  simp only [Nat.shiftLeft_eq]
  omega

end Sys2Proof.Machine
end

