-- ==== Sys2Proof/Laws/State.lean ====
section
/-!
SUPPORT. One lemma per field of each named update of the state, so that no later proof unfolds a record update.
-/

namespace Sys2Proof.Machine

/-! ### `respond` -/

@[simp] theorem respond_cfg (s : State) (st : Status) (fr : BitVec 9) (v : Word) (evs : List Event) :
    (respond s st fr v evs).cfg = s.cfg := rfl
@[simp] theorem respond_sender (s : State) (st : Status) (fr : BitVec 9) (v : Word) (evs : List Event) :
    (respond s st fr v evs).sender = s.sender := rfl
@[simp] theorem respond_aTrun (s : State) (st : Status) (fr : BitVec 9) (v : Word) (evs : List Event) :
    (respond s st fr v evs).aTrun = s.aTrun := rfl
@[simp] theorem respond_receiver (s : State) (st : Status) (fr : BitVec 9) (v : Word) (evs : List Event) :
    (respond s st fr v evs).receiver = s.receiver := rfl
@[simp] theorem respond_fault (s : State) (st : Status) (fr : BitVec 9) (v : Word) (evs : List Event) :
    (respond s st fr v evs).fault = s.fault ||| fr := rfl
@[simp] theorem respond_cntPacketsResent (s : State) (st : Status) (fr : BitVec 9) (v : Word) (evs : List Event) :
    (respond s st fr v evs).cntPacketsResent = s.cntPacketsResent := rfl
@[simp] theorem respond_cntNewAcks (s : State) (st : Status) (fr : BitVec 9) (v : Word) (evs : List Event) :
    (respond s st fr v evs).cntNewAcks = s.cntNewAcks := rfl
@[simp] theorem respond_cntWindowFull (s : State) (st : Status) (fr : BitVec 9) (v : Word) (evs : List Event) :
    (respond s st fr v evs).cntWindowFull = s.cntWindowFull := rfl
@[simp] theorem respond_cntPacketsReceived (s : State) (st : Status) (fr : BitVec 9) (v : Word) (evs : List Event) :
    (respond s st fr v evs).cntPacketsReceived = s.cntPacketsReceived := rfl
@[simp] theorem respond_cntTotalAcksReceived (s : State) (st : Status) (fr : BitVec 9) (v : Word) (evs : List Event) :
    (respond s st fr v evs).cntTotalAcksReceived = s.cntTotalAcksReceived := rfl
@[simp] theorem respond_inputs (s : State) (st : Status) (fr : BitVec 9) (v : Word) (evs : List Event) :
    (respond s st fr v evs).inputs = s.inputs := rfl
@[simp] theorem respond_ibuf (s : State) (st : Status) (fr : BitVec 9) (v : Word) (evs : List Event) :
    (respond s st fr v evs).ibuf = s.ibuf := rfl
@[simp] theorem respond_sample (s : State) (st : Status) (fr : BitVec 9) (v : Word) (evs : List Event) :
    (respond s st fr v evs).sample = s.sample := rfl
@[simp] theorem respond_resp (s : State) (st : Status) (fr : BitVec 9) (v : Word) (evs : List Event) :
    (respond s st fr v evs).resp = some ⟨st, fr, v⟩ := rfl
@[simp] theorem respond_events (s : State) (st : Status) (fr : BitVec 9) (v : Word) (evs : List Event) :
    (respond s st fr v evs).events = evs := rfl

/-! ### `takeCommand` -/

@[simp] theorem takeCommand_cfg (s : State) (image : Memory) (rest : List HostInput) :
    (takeCommand s image rest).cfg = s.cfg := rfl
@[simp] theorem takeCommand_sender (s : State) (image : Memory) (rest : List HostInput) :
    (takeCommand s image rest).sender = s.sender := rfl
@[simp] theorem takeCommand_aTrun (s : State) (image : Memory) (rest : List HostInput) :
    (takeCommand s image rest).aTrun = s.aTrun := rfl
@[simp] theorem takeCommand_receiver (s : State) (image : Memory) (rest : List HostInput) :
    (takeCommand s image rest).receiver = s.receiver := rfl
@[simp] theorem takeCommand_fault (s : State) (image : Memory) (rest : List HostInput) :
    (takeCommand s image rest).fault = s.fault := rfl
@[simp] theorem takeCommand_cntPacketsResent (s : State) (image : Memory) (rest : List HostInput) :
    (takeCommand s image rest).cntPacketsResent = s.cntPacketsResent := rfl
@[simp] theorem takeCommand_cntNewAcks (s : State) (image : Memory) (rest : List HostInput) :
    (takeCommand s image rest).cntNewAcks = s.cntNewAcks := rfl
@[simp] theorem takeCommand_cntWindowFull (s : State) (image : Memory) (rest : List HostInput) :
    (takeCommand s image rest).cntWindowFull = s.cntWindowFull := rfl
@[simp] theorem takeCommand_cntPacketsReceived (s : State) (image : Memory) (rest : List HostInput) :
    (takeCommand s image rest).cntPacketsReceived = s.cntPacketsReceived := rfl
@[simp] theorem takeCommand_cntTotalAcksReceived (s : State) (image : Memory) (rest : List HostInput) :
    (takeCommand s image rest).cntTotalAcksReceived = s.cntTotalAcksReceived := rfl
@[simp] theorem takeCommand_inputs (s : State) (image : Memory) (rest : List HostInput) :
    (takeCommand s image rest).inputs = rest := rfl
@[simp] theorem takeCommand_ibuf (s : State) (image : Memory) (rest : List HostInput) :
    (takeCommand s image rest).ibuf = image := rfl
@[simp] theorem takeCommand_sample (s : State) (image : Memory) (rest : List HostInput) :
    (takeCommand s image rest).sample = s.sample + 1 := rfl
@[simp] theorem takeCommand_resp (s : State) (image : Memory) (rest : List HostInput) :
    (takeCommand s image rest).resp = s.resp := rfl
@[simp] theorem takeCommand_events (s : State) (image : Memory) (rest : List HostInput) :
    (takeCommand s image rest).events = s.events := rfl

/-! ### `resetMove` -/

@[simp] theorem resetMove_cfg (s : State) (rest : List HostInput) :
    (resetMove s rest).cfg = s.cfg := rfl
@[simp] theorem resetMove_sender (s : State) (rest : List HostInput) :
    (resetMove s rest).sender = none := rfl
@[simp] theorem resetMove_aTrun (s : State) (rest : List HostInput) :
    (resetMove s rest).aTrun = false := rfl
@[simp] theorem resetMove_receiver (s : State) (rest : List HostInput) :
    (resetMove s rest).receiver = none := rfl
@[simp] theorem resetMove_fault (s : State) (rest : List HostInput) :
    (resetMove s rest).fault = 0 := rfl
@[simp] theorem resetMove_cntPacketsResent (s : State) (rest : List HostInput) :
    (resetMove s rest).cntPacketsResent = 0 := rfl
@[simp] theorem resetMove_cntNewAcks (s : State) (rest : List HostInput) :
    (resetMove s rest).cntNewAcks = 0 := rfl
@[simp] theorem resetMove_cntWindowFull (s : State) (rest : List HostInput) :
    (resetMove s rest).cntWindowFull = 0 := rfl
@[simp] theorem resetMove_cntPacketsReceived (s : State) (rest : List HostInput) :
    (resetMove s rest).cntPacketsReceived = 0 := rfl
@[simp] theorem resetMove_cntTotalAcksReceived (s : State) (rest : List HostInput) :
    (resetMove s rest).cntTotalAcksReceived = 0 := rfl
@[simp] theorem resetMove_inputs (s : State) (rest : List HostInput) :
    (resetMove s rest).inputs = rest := rfl
@[simp] theorem resetMove_ibuf (s : State) (rest : List HostInput) :
    (resetMove s rest).ibuf = s.ibuf := rfl
@[simp] theorem resetMove_sample (s : State) (rest : List HostInput) :
    (resetMove s rest).sample = s.sample := rfl
@[simp] theorem resetMove_resp (s : State) (rest : List HostInput) :
    (resetMove s rest).resp = none := rfl
@[simp] theorem resetMove_events (s : State) (rest : List HostInput) :
    (resetMove s rest).events = [] := rfl

/-! ### `idleMove` -/

@[simp] theorem idleMove_cfg (s : State) :
    (idleMove s).cfg = s.cfg := rfl
@[simp] theorem idleMove_sender (s : State) :
    (idleMove s).sender = s.sender := rfl
@[simp] theorem idleMove_aTrun (s : State) :
    (idleMove s).aTrun = s.aTrun := rfl
@[simp] theorem idleMove_receiver (s : State) :
    (idleMove s).receiver = s.receiver := rfl
@[simp] theorem idleMove_fault (s : State) :
    (idleMove s).fault = s.fault := rfl
@[simp] theorem idleMove_cntPacketsResent (s : State) :
    (idleMove s).cntPacketsResent = s.cntPacketsResent := rfl
@[simp] theorem idleMove_cntNewAcks (s : State) :
    (idleMove s).cntNewAcks = s.cntNewAcks := rfl
@[simp] theorem idleMove_cntWindowFull (s : State) :
    (idleMove s).cntWindowFull = s.cntWindowFull := rfl
@[simp] theorem idleMove_cntPacketsReceived (s : State) :
    (idleMove s).cntPacketsReceived = s.cntPacketsReceived := rfl
@[simp] theorem idleMove_cntTotalAcksReceived (s : State) :
    (idleMove s).cntTotalAcksReceived = s.cntTotalAcksReceived := rfl
@[simp] theorem idleMove_inputs (s : State) :
    (idleMove s).inputs = s.inputs := rfl
@[simp] theorem idleMove_ibuf (s : State) :
    (idleMove s).ibuf = s.ibuf := rfl
@[simp] theorem idleMove_sample (s : State) :
    (idleMove s).sample = s.sample := rfl
@[simp] theorem idleMove_resp (s : State) :
    (idleMove s).resp = none := rfl
@[simp] theorem idleMove_events (s : State) :
    (idleMove s).events = [] := rfl

/-! ### `State.resetOf` -/

@[simp] theorem resetOf_cfg (c : Config) :
    (State.resetOf c).cfg = c := rfl
@[simp] theorem resetOf_sender (c : Config) :
    (State.resetOf c).sender = none := rfl
@[simp] theorem resetOf_aTrun (c : Config) :
    (State.resetOf c).aTrun = false := rfl
@[simp] theorem resetOf_receiver (c : Config) :
    (State.resetOf c).receiver = none := rfl
@[simp] theorem resetOf_fault (c : Config) :
    (State.resetOf c).fault = 0 := rfl
@[simp] theorem resetOf_cntPacketsResent (c : Config) :
    (State.resetOf c).cntPacketsResent = 0 := rfl
@[simp] theorem resetOf_cntNewAcks (c : Config) :
    (State.resetOf c).cntNewAcks = 0 := rfl
@[simp] theorem resetOf_cntWindowFull (c : Config) :
    (State.resetOf c).cntWindowFull = 0 := rfl
@[simp] theorem resetOf_cntPacketsReceived (c : Config) :
    (State.resetOf c).cntPacketsReceived = 0 := rfl
@[simp] theorem resetOf_cntTotalAcksReceived (c : Config) :
    (State.resetOf c).cntTotalAcksReceived = 0 := rfl
@[simp] theorem resetOf_inputs (c : Config) :
    (State.resetOf c).inputs = [] := rfl
@[simp] theorem resetOf_ibuf (c : Config) :
    (State.resetOf c).ibuf = [] := rfl
@[simp] theorem resetOf_sample (c : Config) :
    (State.resetOf c).sample = 0 := rfl
@[simp] theorem resetOf_resp (c : Config) :
    (State.resetOf c).resp = none := rfl
@[simp] theorem resetOf_events (c : Config) :
    (State.resetOf c).events = [] := rfl

/-! ### `retire` -/

@[simp] theorem retire_base (c : Config) (w : Sender) :
    (retire c w).base = ringInc c w.base := rfl
@[simp] theorem retire_next (c : Config) (w : Sender) :
    (retire c w).next = w.next := rfl
@[simp] theorem retire_tseq (c : Config) (w : Sender) :
    (retire c w).tseq = w.tseq := rfl
@[simp] theorem retire_valid (c : Config) (w : Sender) :
    (retire c w).valid = flagSet w.valid w.base false := rfl
@[simp] theorem retire_acked (c : Config) (w : Sender) :
    (retire c w).acked = flagSet w.acked w.base false := rfl
@[simp] theorem retire_pkts (c : Config) (w : Sender) :
    (retire c w).pkts = slotClear w.pkts w.base := rfl

/-! ### `acceptMessage` -/

@[simp] theorem acceptMessage_base (c : Config) (w : Sender) (pkt : Packet) (tseq : Nat) :
    (acceptMessage c w pkt tseq).base = w.base := rfl
@[simp] theorem acceptMessage_next (c : Config) (w : Sender) (pkt : Packet) (tseq : Nat) :
    (acceptMessage c w pkt tseq).next = ringInc c w.next := rfl
@[simp] theorem acceptMessage_tseq (c : Config) (w : Sender) (pkt : Packet) (tseq : Nat) :
    (acceptMessage c w pkt tseq).tseq = tseq := rfl
@[simp] theorem acceptMessage_valid (c : Config) (w : Sender) (pkt : Packet) (tseq : Nat) :
    (acceptMessage c w pkt tseq).valid = flagSet w.valid w.next true := rfl
@[simp] theorem acceptMessage_acked (c : Config) (w : Sender) (pkt : Packet) (tseq : Nat) :
    (acceptMessage c w pkt tseq).acked = flagSet w.acked w.next false := rfl
@[simp] theorem acceptMessage_pkts (c : Config) (w : Sender) (pkt : Packet) (tseq : Nat) :
    (acceptMessage c w pkt tseq).pkts = slotWrite w.pkts w.next pkt := rfl

/-! ### `senderInit` -/

@[simp] theorem senderInit_base (c : Config) :
    (senderInit c).base = 0 := rfl
@[simp] theorem senderInit_next (c : Config) :
    (senderInit c).next = 0 := rfl
@[simp] theorem senderInit_tseq (c : Config) :
    (senderInit c).tseq = 0 := rfl
@[simp] theorem senderInit_valid (c : Config) :
    (senderInit c).valid = flagsClear c := rfl
@[simp] theorem senderInit_acked (c : Config) :
    (senderInit c).acked = flagsClear c := rfl
@[simp] theorem senderInit_pkts (c : Config) :
    (senderInit c).pkts = [] := rfl

/-! ### `passSlot` -/

@[simp] theorem passSlot_base (c : Config) (r : Receiver) :
    (passSlot c r).base = ringInc c r.base := rfl
@[simp] theorem passSlot_rcvd (c : Config) (r : Receiver) :
    (passSlot c r).rcvd = flagSet r.rcvd r.base false := rfl
@[simp] theorem passSlot_pkts (c : Config) (r : Receiver) :
    (passSlot c r).pkts = slotClear r.pkts r.base := rfl

/-! ### `bufferPacket` -/

@[simp] theorem bufferPacket_base (r : Receiver) (q : Nat) (pkt : Packet) :
    (bufferPacket r q pkt).base = r.base := rfl
@[simp] theorem bufferPacket_rcvd (r : Receiver) (q : Nat) (pkt : Packet) :
    (bufferPacket r q pkt).rcvd = flagSet r.rcvd q true := rfl
@[simp] theorem bufferPacket_pkts (r : Receiver) (q : Nat) (pkt : Packet) :
    (bufferPacket r q pkt).pkts = slotWrite r.pkts q pkt := rfl

/-! ### `receiverInit` -/

@[simp] theorem receiverInit_base (c : Config) :
    (receiverInit c).base = 0 := rfl
@[simp] theorem receiverInit_rcvd (c : Config) :
    (receiverInit c).rcvd = flagsClear c := rfl
@[simp] theorem receiverInit_pkts (c : Config) :
    (receiverInit c).pkts = [] := rfl

end Sys2Proof.Machine
end

