-- ==== Sys2Proof/Laws/Ops.lean ====
section
/-!
SUPPORT. Every command ends in one response: what the two ends give, and the shape that every command's outcome has.
-/

namespace Sys2Proof.Machine

theorem complete_eq (s : State) (st : Status) (fr : BitVec 9) (v : Int) (evs : List Event) :
    complete s st fr v evs = .next (respond s st fr (wrap32 v) evs) := rfl

theorem raiseFault_eq (f : FaultName) (s : State) :
    raiseFault f s = .next (respond s .refused (faultMask f) 0 []) := rfl

/-- The value of a response is a natural number's 32-bit pattern. -/
theorem complete_nat (s : State) (st : Status) (fr : BitVec 9) (n : Nat) (evs : List Event) :
    complete s st fr (n : Int) evs = .next (respond s st fr (BitVec.ofNat 32 n) evs) := by
  rw [complete_eq, wrap32_natCast]

/-- The parts of the state that no command writes. -/
def sameInputs (s t : State) : Prop :=
  t.cfg = s.cfg ∧ t.fault = s.fault ∧ t.inputs = s.inputs ∧ t.ibuf = s.ibuf ∧ t.sample = s.sample

/-- Everything a command's outcome can be: a next state, which is `respond` of a state whose faults and inputs are as before. -/
theorem exec_shape (i : Instr) (s : State) : ∃ t st fr v evs, exec i s = .next (respond t st fr v evs) ∧ sameInputs s t := by
  cases i <;>
    simp only [exec, execRdist, execRinc, execRdec, execRinwin, execCsum, execChk, execAInit, execAOutput, execAOnack,
      execAOntimeout, execBInit, execBOnpacket, execBOutput, execBTimerint, execRdsr, acceptAck, drainAndAck, complete_eq,
      raiseFault_eq] <;>
    (repeat' split) <;> exact ⟨_, _, _, _, _, rfl, rfl, rfl, rfl, rfl, rfl⟩

/-- What a step does: the core is idle, is reset, refuses an illegal word, or executes a command. -/
theorem step_cases (s : State) :
    (s.inputs = [] ∧ step s = .next (idleMove s)) ∨
    (∃ rest, s.inputs = .reset :: rest ∧ step s = .next (resetMove s rest)) ∨
    (∃ cmd image rest reason, s.inputs = .command cmd image :: rest ∧ decode cmd = .error reason ∧
      step s = .next (respond (takeCommand s image rest) .refused (faultMask .illcmd) 0 [])) ∨
    (∃ cmd image rest i, s.inputs = .command cmd image :: rest ∧ decode cmd = .ok i ∧
      step s = exec i (takeCommand s image rest)) := by
  unfold step
  split
  · exact .inl ⟨‹_›, rfl⟩
  · exact .inr (.inl ⟨_, ‹_›, rfl⟩)
  · split
    · exact .inr (.inr (.inr ⟨_, _, _, _, ‹_›, ‹_›, rfl⟩))
    · exact .inr (.inr (.inl ⟨_, _, _, _, ‹_›, ‹_›, rfl⟩))

end Sys2Proof.Machine
end

