-- ==== Sys2Proof/Laws/Memory.lean ====
section
/-!
SUPPORT. The laws of the keyed stores (of `IBUF` and of the slot stores) and of the slot flags: what a read gives after a
write or a clear, and that every operation keeps the canonical form.
-/

namespace Sys2Proof.Machine

/-! ### Keyed stores -/

@[simp] theorem storeRead_nil {α : Type} (a : Nat) : storeRead ([] : List (Nat × α)) a = none := rfl

theorem storeRead_storeWrite {α : Type} (st : List (Nat × α)) (a : Nat) (v : α) (b : Nat) :
    storeRead (storeWrite st a v) b = if b = a then some v else storeRead st b := by
  induction st with
  | nil => simp only [storeWrite, storeRead, eq_comm]
  | cons e rest ih =>
    obtain ⟨k, w⟩ := e
    simp only [storeWrite]
    split
    · simp only [storeRead, eq_comm (a := a)]
    · split
      · subst_vars; simp only [storeRead, eq_comm (a := k)]; split <;> simp_all
      · simp only [storeRead, ih]; split <;> simp_all [eq_comm]

theorem storeRead_storeClear {α : Type} (st : List (Nat × α)) (a b : Nat) :
    storeRead (storeClear st a) b = if b = a then none else storeRead st b := by
  induction st with
  | nil => simp [storeClear]
  | cons e rest ih =>
    obtain ⟨k, w⟩ := e
    simp only [storeClear, List.filter_cons] at ih ⊢
    by_cases h : k = a
    · subst h; simp only [bne_self_eq_false, Bool.false_eq_true, if_false, ih, storeRead]
      split <;> simp_all [eq_comm]
    · simp only [bne_iff_ne, ne_eq, h, not_false_eq_true, if_true, storeRead, ih]
      split <;> simp_all

/-- A key that a store lists. -/
theorem storeRead_mem {α : Type} {st : List (Nat × α)} {a : Nat} {v : α} (h : storeRead st a = some v) :
    (a, v) ∈ st := by
  induction st with
  | nil => simp at h
  | cons e rest ih =>
    obtain ⟨k, w⟩ := e
    simp only [storeRead] at h
    split at h
    · simp_all
    · simp [ih h]

theorem storeWf_nil {α : Type} : storeWf ([] : List (Nat × α)) := List.Pairwise.nil

theorem storeWrite_mem {α : Type} {st : List (Nat × α)} {a : Nat} {v : α} {e : Nat × α}
    (h : e ∈ storeWrite st a v) : e = (a, v) ∨ e ∈ st := by
  induction st with
  | nil => simpa [storeWrite] using h
  | cons f rest ih =>
    obtain ⟨k, w⟩ := f
    simp only [storeWrite] at h
    split at h
    · simpa using h
    · split at h
      · rcases List.mem_cons.1 h with h | h
        · exact .inl h
        · exact .inr (List.mem_cons_of_mem _ h)
      · rcases List.mem_cons.1 h with h | h
        · exact .inr (h ▸ List.mem_cons_self)
        · exact (ih h).imp id (List.mem_cons_of_mem _)

theorem storeWf_storeWrite {α : Type} {st : List (Nat × α)} (h : storeWf st) (a : Nat) (v : α) :
    storeWf (storeWrite st a v) := by
  induction st with
  | nil => exact List.pairwise_singleton _ _
  | cons e rest ih =>
    obtain ⟨k, w⟩ := e
    obtain ⟨hk, hr⟩ := List.pairwise_cons.1 h
    simp only [storeWrite]
    split
    · refine List.pairwise_cons.2 ⟨fun f hf => ?_, h⟩
      rcases List.mem_cons.1 hf with rfl | hf
      · assumption
      · exact lt_trans ‹a < k› (hk f hf)
    · split
      · subst_vars; exact List.pairwise_cons.2 ⟨hk, hr⟩
      · refine List.pairwise_cons.2 ⟨fun f hf => ?_, ih hr⟩
        rcases storeWrite_mem hf with rfl | hf
        · show k < a; omega
        · exact hk f hf

theorem storeWf_storeClear {α : Type} {st : List (Nat × α)} (h : storeWf st) (a : Nat) :
    storeWf (storeClear st a) := List.Pairwise.filter _ h

/-! ### Memory -/

/-- A read after a write: the byte written, or what was there before. -/
theorem Memory_read_write (m : Memory) (a : Nat) (b : Byte) (a' : Nat) :
    (m.write a b).read a' = if a' = a then some b else m.read a' := storeRead_storeWrite m a b a'

/-- A write keeps memory's canonical form. -/
theorem Memory_wf_write {m : Memory} (h : m.wf) (a : Nat) (b : Byte) : (m.write a b).wf := storeWf_storeWrite h a b

theorem Memory_read_ofBytesFrom (k : Nat) (bs : List Byte) (a : Nat) :
    (Memory.ofBytesFrom k bs).read a = if k ≤ a then bs[a - k]? else none := by
  induction bs generalizing k with
  | nil => simp [Memory.ofBytesFrom, Memory.read]
  | cons b bs ih =>
    have ih' := ih (k + 1)
    simp only [Memory.read] at ih' ⊢
    simp only [Memory.ofBytesFrom, storeRead, ih']
    by_cases hk : k = a
    · subst hk; simp
    · by_cases hle : k ≤ a
      · rw [if_neg hk, if_pos (by omega), if_pos hle, show a - k = (a - (k + 1)) + 1 by omega, List.getElem?_cons_succ]
      · rw [if_neg hk, if_neg (by omega), if_neg hle]

/-- Reading the image of a byte list. -/
@[simp] theorem Memory_read_ofBytes (bs : List Byte) (a : Nat) : (Memory.ofBytes bs).read a = bs[a]? := by
  simp [Memory.ofBytes, Memory_read_ofBytesFrom]

theorem Memory_ofBytesFrom_le {k : Nat} {bs : List Byte} {e : Nat × Byte} (h : e ∈ Memory.ofBytesFrom k bs) : k ≤ e.1 := by
  induction bs generalizing k with
  | nil => simp [Memory.ofBytesFrom] at h
  | cons b bs ih =>
    simp only [Memory.ofBytesFrom, List.mem_cons] at h
    rcases h with rfl | h
    · exact le_rfl
    · exact Nat.le_of_succ_le (ih h)

/-- The image of a byte list is in canonical form. -/
theorem Memory_wf_ofBytesFrom (k : Nat) (bs : List Byte) : (Memory.ofBytesFrom k bs).wf := by
  induction bs generalizing k with
  | nil => exact List.Pairwise.nil
  | cons b bs ih => exact List.pairwise_cons.2 ⟨fun e he => Memory_ofBytesFrom_le he, ih (k + 1)⟩

theorem Memory_wf_ofBytes (bs : List Byte) : (Memory.ofBytes bs).wf := Memory_wf_ofBytesFrom 0 bs

/-! ### Slot stores -/

theorem storeRead_slotWrite (st : SlotStore) (k : Nat) (p : Packet) (j : Nat) :
    storeRead (slotWrite st k p) j = if j = k then some p else storeRead st j := storeRead_storeWrite st k p j

theorem storeRead_slotClear (st : SlotStore) (k j : Nat) :
    storeRead (slotClear st k) j = if j = k then none else storeRead st j := storeRead_storeClear st k j

/-- An entry that holds a packet reads as that packet. -/
theorem slotRead_of_some {s : State} {st : SlotStore} {k : Nat} {p : Packet} (h : storeRead st k = some p) :
    slotRead s st k = p := by simp [slotRead, h]

/-! ### Slot flags -/

@[simp] theorem length_flagSet (l : List Bool) (k : Nat) (b : Bool) : (flagSet l k b).length = l.length := by
  simp [flagSet]

@[simp] theorem length_flagsClear (c : Config) : (flagsClear c).length = c.S := by simp [flagsClear]

@[simp] theorem flagGet_flagsClear (c : Config) (k : Nat) : flagGet (flagsClear c) k = false := by
  simp [flagGet, flagsClear, List.getD_eq_getElem?_getD, List.getElem?_replicate]; split <;> rfl

theorem flagGet_flagSet {l : List Bool} {k : Nat} (b : Bool) (j : Nat) (hk : k < l.length) :
    flagGet (flagSet l k b) j = if j = k then b else flagGet l j := by
  simp only [flagGet, flagSet, List.getD_eq_getElem?_getD, List.getElem?_set]
  by_cases h : k = j
  · subst h; simp [hk]
  · simp [h, Ne.symm h]

/-- Clearing a flag needs no bound: an index past the end reads as cleared. -/
theorem flagGet_flagSet_false (l : List Bool) (k j : Nat) :
    flagGet (flagSet l k false) j = if j = k then false else flagGet l j := by
  by_cases hk : k < l.length
  · exact flagGet_flagSet false j hk
  · rw [flagSet, List.set_eq_of_length_le (by omega)]
    split
    · subst_vars; simp [flagGet, List.getD_eq_getElem?_getD, List.getElem?_eq_none (by omega : l.length ≤ j)]
    · rfl

end Sys2Proof.Machine
end

