-- ==== Sys2Proof/Laws/Ring.lean ====
section
/-!
SUPPORT. What the ring functions give on sequence numbers, as case distinctions that `omega` can use, and the bounds a legal
configuration gives.
-/

namespace Sys2Proof.Machine

theorem Config_S_pos (c : Config) : 0 < c.S := by
  have := c.one_le_W; have := c.two_W_le_S; omega

theorem Config_W_lt_S (c : Config) : c.W < c.S := by
  have := c.one_le_W; have := c.two_W_le_S; omega

theorem ringDist_lt (c : Config) (x y : Nat) : ringDist c x y < c.S := by
  have h := Config_S_pos c
  have := Int.emod_lt_of_pos ((x : Int) - y + c.S) (b := (c.S : Int)) (by omega)
  have := Int.emod_nonneg ((x : Int) - y + c.S) (b := (c.S : Int)) (by omega)
  unfold ringDist; omega

/-- A sum of two sequence numbers, taken mod `S`. -/
theorem mod_S_eq {c : Config} {n : Nat} (h : n < 2 * c.S) : n % c.S = if n < c.S then n else n - c.S := by
  split
  · exact Nat.mod_eq_of_lt ‹_›
  · rw [Nat.mod_eq_sub_mod (by omega), Nat.mod_eq_of_lt (by omega)]

theorem ringDist_eq {c : Config} {x y : Nat} (hx : x < c.S) (hy : y < c.S) :
    ringDist c x y = if y ≤ x then x - y else x + c.S - y := by
  unfold ringDist
  split
  · rw [Int.add_emod_right, Int.emod_eq_of_lt (by omega) (by omega)]; omega
  · rw [Int.emod_eq_of_lt (by omega) (by omega)]; omega

theorem ringInc_eq {c : Config} {x : Nat} (hx : x < c.S) :
    ringInc c x = if x + 1 = c.S then 0 else x + 1 := by
  unfold ringInc
  split
  · simp_all
  · exact Nat.mod_eq_of_lt (by omega)

theorem ringDec_eq {c : Config} {x : Nat} (hx : x < c.S) :
    ringDec c x = if x = 0 then c.S - 1 else x - 1 := by
  unfold ringDec
  split
  · rw [Int.emod_eq_of_lt (by omega) (by omega)]; omega
  · rw [Int.add_emod_right, Int.emod_eq_of_lt (by omega) (by omega)]; omega

theorem ringOffset_eq {c : Config} {b i : Nat} (hb : b < c.S) (hi : i < c.S) :
    ringOffset c b i = if b + i < c.S then b + i else b + i - c.S := by
  unfold ringOffset
  split
  · exact Nat.mod_eq_of_lt ‹_›
  · rw [Nat.mod_eq_sub_mod (by omega), Nat.mod_eq_of_lt (by omega)]

theorem ringInc_lt (c : Config) (x : Nat) : ringInc c x < c.S := Nat.mod_lt _ (Config_S_pos c)

theorem ringOffset_lt (c : Config) (b i : Nat) : ringOffset c b i < c.S := Nat.mod_lt _ (Config_S_pos c)

theorem ringDec_lt {c : Config} {x : Nat} (hx : x < c.S) : ringDec c x < c.S := by
  rw [ringDec_eq hx]; split <;> omega

@[simp] theorem ringOffset_zero {c : Config} {b : Nat} (hb : b < c.S) : ringOffset c b 0 = b :=
  Nat.mod_eq_of_lt hb

/-- Offsets from an advanced base. -/
theorem ringOffset_ringInc (c : Config) (b i : Nat) :
    ringOffset c (ringInc c b) i = ringOffset c b (i + 1) := by
  simp [ringOffset, ringInc, Nat.mod_add_mod, Nat.add_assoc, Nat.add_comm 1 i]

/-- A slot is the base plus its distance from the base. -/
theorem ringOffset_ringDist {c : Config} {x b : Nat} (hx : x < c.S) (hb : b < c.S) :
    ringOffset c b (ringDist c x b) = x := by
  have h := ringDist_lt c x b
  rw [ringOffset_eq hb h, ringDist_eq hx hb]; split <;> split <;> omega

/-- The distance of base plus offset is the offset. -/
theorem ringDist_ringOffset {c : Config} {b i : Nat} (hb : b < c.S) (hi : i < c.S) :
    ringDist c (ringOffset c b i) b = i := by
  rw [ringDist_eq (ringOffset_lt c b i) hb, ringOffset_eq hb hi]; split <;> split <;> omega

@[simp] theorem isSeqnum_iff {c : Config} {x : Nat} : isSeqnum c x = true ↔ x < c.S := by simp [isSeqnum]

@[simp] theorem inWindow_iff {c : Config} {x b : Nat} : inWindow c x b = true ↔ ringDist c x b < c.W := by
  simp [inWindow]

/-- A packet field is a slot index exactly when its signed value is a sequence number. -/
theorem fieldSlot_eq_some {c : Config} {p : Word} {k : Nat} :
    fieldSlot c p = some k ↔ s32 p = (k : Int) ∧ k < c.S := by
  unfold fieldSlot
  split
  · simp only [Option.some.injEq]; omega
  · constructor
    · simp
    · omega

theorem fieldSlot_eq_none {c : Config} {p : Word} :
    fieldSlot c p = none ↔ s32 p < 0 ∨ (c.S : Int) ≤ s32 p := by
  unfold fieldSlot
  split
  · simp; omega
  · simp; omega

end Sys2Proof.Machine
end

