-- ==== Sys2Proof/Laws/Windows.lean ====
section
/-!
SUPPORT. Runs of slots on the ring, and everything the two loops, the slide of `AcceptAck` and the drain of `B_ONPACKET`, can do.
-/

namespace Sys2Proof.Machine

/-! ### Runs of slots -/

theorem inRun_iff {c : Config} {b n k : Nat} : inRun c b n k = true ↔ k < c.S ∧ ringDist c k b < n := by
  simp [inRun]

@[simp] theorem inRun_zero (c : Config) (b k : Nat) : inRun c b 0 k = false := by simp [inRun]

/-- A slot of a run is the base plus an offset below the run's length. -/
theorem inRun_iff_offset {c : Config} {b n k : Nat} (hb : b < c.S) (hn : n ≤ c.S) :
    inRun c b n k = true ↔ ∃ i < n, k = ringOffset c b i := by
  rw [inRun_iff]
  constructor
  · rintro ⟨hk, hd⟩; exact ⟨_, hd, (ringOffset_ringDist hk hb).symm⟩
  · rintro ⟨i, hi, rfl⟩
    exact ⟨ringOffset_lt c b i, by rw [ringDist_ringOffset hb (by omega)]; exact hi⟩

/-- A run of `n + 1` slots is its first slot and the run of `n` slots from the next base. -/
theorem inRun_succ {c : Config} {b n : Nat} (hb : b < c.S) (hn : n < c.S) (k : Nat) :
    inRun c b (n + 1) k = (decide (k = b) || inRun c (ringInc c b) n k) := by
  rw [Bool.eq_iff_iff, Bool.or_eq_true, inRun_iff, inRun_iff, decide_eq_true_iff]
  by_cases hk : k < c.S
  · rw [ringDist_eq hk hb, ringDist_eq hk (ringInc_lt c b), ringInc_eq hb]
    split <;> split <;> split <;> omega
  · simp [hk]; omega

/-- A run of `n` slots has `n` slots. -/
theorem length_filter_inRun {c : Config} {b n : Nat} (hb : b < c.S) (hn : n ≤ c.S) :
    ((List.range c.S).filter (inRun c b n)).length = n := by
  have inj : ((List.range n).map (ringOffset c b)).Nodup := by
    refine List.Nodup.map_on (fun i hi j hj h => ?_) List.nodup_range
    have hi := List.mem_range.1 hi; have hj := List.mem_range.1 hj
    rw [← ringDist_ringOffset hb (show i < c.S by omega), h, ringDist_ringOffset hb (by omega)]
  have perm : ((List.range c.S).filter (inRun c b n)).Perm ((List.range n).map (ringOffset c b)) := by
    refine (List.perm_ext_iff_of_nodup (List.nodup_range.filter _) inj).2 fun k => ?_
    rw [List.mem_filter, inRun_iff_offset hb hn]
    simp only [List.mem_range, List.mem_map]
    constructor
    · rintro ⟨-, i, hi, rfl⟩; exact ⟨i, hi, rfl⟩
    · rintro ⟨i, hi, rfl⟩; exact ⟨ringOffset_lt c b i, i, hi, rfl⟩
  simpa using perm.length_eq

/-! ### The slide -/

/-- Everything the slide does (R119): it retires a run of slots from `A_BASE`, each valid and acknowledged, and changes
nothing else; it stops early only at a slot that is not. -/
theorem slide_spec (c : Config) (turns : Nat) (w : Sender) (hb : w.base < c.S) (ht : turns ≤ c.S) :
    (slide c turns w).2 ≤ turns ∧
    (slide c turns w).1.base = ringOffset c w.base (slide c turns w).2 ∧
    (slide c turns w).1.next = w.next ∧
    (slide c turns w).1.tseq = w.tseq ∧
    (slide c turns w).1.valid.length = w.valid.length ∧
    (slide c turns w).1.acked.length = w.acked.length ∧
    (∀ k, flagGet (slide c turns w).1.valid k =
      (flagGet w.valid k && !inRun c w.base (slide c turns w).2 k)) ∧
    (∀ k, flagGet (slide c turns w).1.acked k =
      (flagGet w.acked k && !inRun c w.base (slide c turns w).2 k)) ∧
    (∀ k, storeRead (slide c turns w).1.pkts k =
      if inRun c w.base (slide c turns w).2 k then none else storeRead w.pkts k) ∧
    (∀ k, inRun c w.base (slide c turns w).2 k = true → isRetirable w k = true) ∧
    ((slide c turns w).2 < turns → isRetirable (slide c turns w).1 (slide c turns w).1.base = false) ∧
    (storeWf w.pkts → storeWf (slide c turns w).1.pkts) := by
  induction turns generalizing w with
  | zero => simp [slide, hb]
  | succ n ih =>
    rw [slide]
    by_cases hr : isRetirable w w.base = true
    · obtain ⟨h1, h2, h3, h4, h5, h6, h7, h8, h9, h10, h11, h12⟩ := ih (retire c w) (ringInc_lt c _) (by omega)
      simp only [if_pos hr]
      simp only [retire_base, retire_next, retire_tseq, retire_valid, retire_acked, retire_pkts, length_flagSet,
        flagGet_flagSet_false, storeRead_slotClear, ringOffset_ringInc] at h2 h3 h4 h5 h6 h7 h8 h9 h10 h12
      have hs := inRun_succ hb (n := (slide c n (retire c w)).2) (by omega)
      refine ⟨by omega, h2, h3, h4, h5, h6, fun k => ?_, fun k => ?_, fun k => ?_, fun k hk => ?_,
        fun h => h11 (by omega), fun h => h12 (storeWf_storeClear h _)⟩
      · rw [h7, hs]; by_cases hk : k = w.base <;> simp [hk]
      · rw [h8, hs]; by_cases hk : k = w.base <;> simp [hk]
      · rw [h9, hs]; by_cases hk : k = w.base <;> simp [hk]
      · rw [hs] at hk
        by_cases hkb : k = w.base
        · exact hkb ▸ hr
        · have := h10 k (by simpa [hkb] using hk)
          simpa [isRetirable, flagGet_flagSet_false, hkb] using this
    · simp_all

/-- The loop of R119 ends within the turns the model gives it: after `S` turns every slot has been retired. -/
theorem slide_exit (c : Config) (w : Sender) (hb : w.base < c.S) :
    isRetirable (slide c c.S w).1 (slide c c.S w).1.base = false := by
  obtain ⟨h1, h2, -, -, -, -, h7, -, -, -, h11, -⟩ := slide_spec c c.S w hb le_rfl
  by_cases h : (slide c c.S w).2 < c.S
  · exact h11 h
  · have hn : (slide c c.S w).2 = c.S := by omega
    rw [isRetirable, h7]
    have hlt : (slide c c.S w).1.base < c.S := h2 ▸ ringOffset_lt c _ _
    have : inRun c w.base (slide c c.S w).2 (slide c c.S w).1.base = true :=
      inRun_iff.2 ⟨hlt, by have := ringDist_lt c (slide c c.S w).1.base w.base; omega⟩
    simp [this]

/-! ### The drain -/

/-- Everything the drain does (R134): it passes a run of slots from `B_BASE`, each received, delivers their payloads in ring
order, and changes nothing else; it stops early only at a slot that is not received. -/
theorem drain_spec (s : State) (turns : Nat) (r : Receiver) (hb : r.base < s.cfg.S) (ht : turns ≤ s.cfg.S) :
    (drain s turns r).2.length ≤ turns ∧
    (drain s turns r).1.base = ringOffset s.cfg r.base (drain s turns r).2.length ∧
    (drain s turns r).1.rcvd.length = r.rcvd.length ∧
    (∀ k, flagGet (drain s turns r).1.rcvd k =
      (flagGet r.rcvd k && !inRun s.cfg r.base (drain s turns r).2.length k)) ∧
    (∀ k, storeRead (drain s turns r).1.pkts k =
      if inRun s.cfg r.base (drain s turns r).2.length k then none else storeRead r.pkts k) ∧
    (∀ k, inRun s.cfg r.base (drain s turns r).2.length k = true → flagGet r.rcvd k = true) ∧
    ((drain s turns r).2.length < turns → flagGet (drain s turns r).1.rcvd (drain s turns r).1.base = false) ∧
    (storeWf r.pkts → storeWf (drain s turns r).1.pkts) ∧
    (drain s turns r).2 = (List.range (drain s turns r).2.length).map
      (fun i => (slotRead s r.pkts (ringOffset s.cfg r.base i)).payload) := by
  induction turns generalizing r with
  | zero => simp [drain, hb]
  | succ n ih =>
    rw [drain]
    by_cases hr : flagGet r.rcvd r.base = true
    · obtain ⟨h1, h2, h3, h4, h5, h6, h7, h8, h9⟩ := ih (passSlot s.cfg r) (ringInc_lt s.cfg _) (by omega)
      simp only [if_pos hr, List.length_cons]
      simp only [passSlot_base, passSlot_rcvd, passSlot_pkts, length_flagSet,
        flagGet_flagSet_false, storeRead_slotClear, ringOffset_ringInc] at h2 h3 h4 h5 h6 h8 h9
      have hs := inRun_succ hb (n := (drain s n (passSlot s.cfg r)).2.length) (by omega)
      refine ⟨by omega, h2, h3, fun k => ?_, fun k => ?_, fun k hk => ?_, fun h => h7 (by omega),
        fun h => h8 (storeWf_storeClear h _), ?_⟩
      · rw [h4, hs]; by_cases hk : k = r.base <;> simp [hk]
      · rw [h5, hs]; by_cases hk : k = r.base <;> simp [hk]
      · rw [hs] at hk
        by_cases hkb : k = r.base
        · exact hkb ▸ hr
        · have := h6 k (by simpa [hkb] using hk)
          simpa [hkb] using this
      · rw [List.range_succ_eq_map, List.map_cons, List.map_map, ringOffset_zero hb]
        congr 1
        refine h9.trans (List.map_congr_left fun i hi => ?_)
        have hi' : i + 1 < s.cfg.S := by have := List.mem_range.1 hi; omega
        have hne : ringOffset s.cfg r.base (i + 1) ≠ r.base := by
          rw [ringOffset_eq hb hi']; split <;> omega
        simp [Function.comp, slotRead, storeRead_slotClear, hne]
    · simp_all

/-- The loop of R134 ends within the turns the model gives it: after `S` turns every slot has been passed. -/
theorem drain_exit (s : State) (r : Receiver) (hb : r.base < s.cfg.S) :
    flagGet (drain s s.cfg.S r).1.rcvd (drain s s.cfg.S r).1.base = false := by
  obtain ⟨h1, h2, -, h4, -, -, h7, -, -⟩ := drain_spec s s.cfg.S r hb le_rfl
  by_cases h : (drain s s.cfg.S r).2.length < s.cfg.S
  · exact h7 h
  · have hn : (drain s s.cfg.S r).2.length = s.cfg.S := by omega
    rw [h4]
    have hlt : (drain s s.cfg.S r).1.base < s.cfg.S := h2 ▸ ringOffset_lt s.cfg _ _
    have : inRun s.cfg r.base (drain s s.cfg.S r).2.length (drain s s.cfg.S r).1.base = true :=
      inRun_iff.2 ⟨hlt, by have := ringDist_lt s.cfg (drain s s.cfg.S r).1.base r.base; omega⟩
    simp [this]

end Sys2Proof.Machine
end

