-- ==== Sys2Proof/Laws/Commands.lean ====
section
/-!
SUPPORT. For each command everything it can answer, case by case: cited instead of unfolding the meaning. Then, over all
commands, what a refused one and one that is not refused can have done.
-/

namespace Sys2Proof.Machine

/-! ### The timer's requests -/

theorem outputTimer_fr (s : State) (w : Sender) :
    (outputTimer s w).fr = if w.base = w.next ∧ s.aTrun = true then faultMask .tDstart else 0 := by
  cases h : s.aTrun <;> by_cases hb : w.base = w.next <;> simp [outputTimer, windowEmpty, timerStart, timerKeep, h, hb]

theorem outputTimer_running (s : State) (w : Sender) :
    (outputTimer s w).running = if w.base = w.next then true else s.aTrun := by
  cases h : s.aTrun <;> by_cases hb : w.base = w.next <;> simp [outputTimer, windowEmpty, timerStart, timerKeep, h, hb]

theorem outputTimer_tseq (s : State) (w : Sender) :
    (outputTimer s w).tseq = if w.base = w.next ∧ s.aTrun = false then w.base else w.tseq := by
  cases h : s.aTrun <;> by_cases hb : w.base = w.next <;> simp [outputTimer, windowEmpty, timerStart, timerKeep, h, hb]

theorem outputTimer_events (s : State) (w : Sender) :
    (outputTimer s w).events = if w.base = w.next ∧ s.aTrun = false then [.tStart .A s.cfg.rtt] else [] := by
  cases h : s.aTrun <;> by_cases hb : w.base = w.next <;> simp [outputTimer, windowEmpty, timerStart, timerKeep, h, hb]

theorem ackTimer_fr (c : Config) (running : Bool) (w : Sender) :
    (ackTimer c running w).fr = if w.base = w.next ∧ running = false then faultMask .tDstop else 0 := by
  cases running <;> by_cases hb : w.base = w.next <;> simp [ackTimer, windowEmpty, timerStop, timerRestart, hb]

theorem ackTimer_running (c : Config) (running : Bool) (w : Sender) :
    (ackTimer c running w).running = decide (w.base ≠ w.next) := by
  cases running <;> by_cases hb : w.base = w.next <;> simp [ackTimer, windowEmpty, timerStop, timerRestart, hb]

theorem ackTimer_tseq (c : Config) (running : Bool) (w : Sender) :
    (ackTimer c running w).tseq = if w.base = w.next then w.tseq else w.base := by
  cases running <;> by_cases hb : w.base = w.next <;> simp [ackTimer, windowEmpty, timerStop, timerRestart, hb]

theorem ackTimer_events (c : Config) (running : Bool) (w : Sender) :
    (ackTimer c running w).events =
      (if running then [.tStop .A] else []) ++ (if w.base = w.next then [] else [.tStart .A c.rtt]) := by
  cases running <;> by_cases hb : w.base = w.next <;> simp [ackTimer, windowEmpty, timerStop, timerRestart, hb]

/-! ### RINGCMP -/

/-- Everything a ring command can answer: `BADARG`, or a value with nothing written. -/
theorem ring_cases {i : Instr} (s : State)
    (h : (∃ x y, i = .rdist x y) ∨ (∃ x, i = .rinc x) ∨ (∃ x, i = .rdec x) ∨ (∃ x y, i = .rinwin x y)) :
    exec i s = raiseFault .badarg s ∨ ∃ v, exec i s = .next (respond s .ok 0 v []) := by
  rcases h with ⟨x, y, rfl⟩ | ⟨x, rfl⟩ | ⟨x, rfl⟩ | ⟨x, y, rfl⟩ <;>
    simp only [exec, execRdist, execRinc, execRdec, execRinwin] <;> split <;> first
      | exact .inr ⟨_, rfl⟩
      | exact .inl rfl

/-! ### Entity A -/

theorem execAInit_cases (s : State) :
    (∃ w, s.sender = some w ∧ execAInit s = raiseFault .aReinit s) ∨
    (s.sender = none ∧ execAInit s = .next (respond { s with sender := some (senderInit s.cfg) } .ok 0 0 [])) := by
  unfold execAInit
  split
  · exact .inl ⟨_, ‹_›, rfl⟩
  · exact .inr ⟨‹_›, rfl⟩

theorem execAOutput_cases (s : State) :
    (s.sender = none ∧ execAOutput s = raiseFault .aNoinit s) ∨
    (∃ w, s.sender = some w ∧ windowCount s.cfg w < s.cfg.W ∧
      execAOutput s = .next (respond
        { s with
          sender := some (acceptMessage s.cfg w (dataPacket s w) (outputTimer s w).tseq)
          aTrun := (outputTimer s w).running }
        .ok (outputTimer s w).fr (BitVec.ofNat 32 w.next) (.send .A (dataPacket s w) :: (outputTimer s w).events))) ∨
    (∃ w, s.sender = some w ∧ s.cfg.W ≤ windowCount s.cfg w ∧
      execAOutput s = .next (respond { s with cntWindowFull := s.cntWindowFull + 1 } .windowFull 0 0 [])) := by
  unfold execAOutput
  split
  · exact .inl ⟨‹_›, rfl⟩
  · split
    · exact .inr (.inl ⟨_, ‹_›, ‹_›, complete_nat _ _ _ _ _⟩)
    · exact .inr (.inr ⟨_, ‹_›, Nat.le_of_not_lt ‹_›, rfl⟩)

/-- The window state, after the slide, of a new acknowledgment of slot `k` (R119). -/
def ackSlide (c : Config) (w : Sender) (k : Nat) : Sender × Nat := slide c c.S { w with acked := flagSet w.acked k true }

theorem execAOnack_cases (s : State) :
    (s.sender = none ∧ execAOnack s = raiseFault .aNoinit s) ∨
    (∃ w, s.sender = some w ∧ isCorrupted (packetOperand s) = true ∧
      execAOnack s = .next (respond s .corrupt 0 0 [])) ∨
    (∃ w, s.sender = some w ∧ isCorrupted (packetOperand s) = false ∧
      (fieldSlot s.cfg (packetOperand s).acknum = none ∨
        ∃ k, fieldSlot s.cfg (packetOperand s).acknum = some k ∧
          (s.cfg.W ≤ ringDist s.cfg k w.base ∨ flagGet w.valid k = false)) ∧
      execAOnack s = .next (respond { s with cntTotalAcksReceived := s.cntTotalAcksReceived + 1 } .staleAck 0 0 [])) ∨
    (∃ w k, s.sender = some w ∧ isCorrupted (packetOperand s) = false ∧
      fieldSlot s.cfg (packetOperand s).acknum = some k ∧
      ringDist s.cfg k w.base < s.cfg.W ∧ flagGet w.valid k = true ∧ flagGet w.acked k = true ∧
      execAOnack s = .next (respond { s with cntTotalAcksReceived := s.cntTotalAcksReceived + 1 } .dupAck 0 0 [])) ∨
    (∃ w k, s.sender = some w ∧ isCorrupted (packetOperand s) = false ∧
      fieldSlot s.cfg (packetOperand s).acknum = some k ∧
      ringDist s.cfg k w.base < s.cfg.W ∧ flagGet w.valid k = true ∧ flagGet w.acked k = false ∧
      execAOnack s = .next (respond
        { s with
          sender := some { (ackSlide s.cfg w k).1 with
            tseq := (ackTimer s.cfg s.aTrun (ackSlide s.cfg w k).1).tseq }
          aTrun := (ackTimer s.cfg s.aTrun (ackSlide s.cfg w k).1).running
          cntTotalAcksReceived := s.cntTotalAcksReceived + 1
          cntNewAcks := s.cntNewAcks + 1 }
        .ok (ackTimer s.cfg s.aTrun (ackSlide s.cfg w k).1).fr (BitVec.ofNat 32 (ackSlide s.cfg w k).2)
        (ackTimer s.cfg s.aTrun (ackSlide s.cfg w k).1).events)) := by
  unfold execAOnack
  split
  · exact .inl ⟨‹_›, rfl⟩
  · dsimp only
    split
    · exact .inr (.inl ⟨_, ‹_›, ‹_›, rfl⟩)
    · rename_i w hw hc
      have hc : isCorrupted (packetOperand s) = false := by simpa using hc
      split
      · exact .inr (.inr (.inl ⟨_, hw, hc, .inl ‹_›, rfl⟩))
      · rename_i k hk
        split
        · rename_i hs
          refine .inr (.inr (.inl ⟨_, hw, hc, .inr ⟨k, hk, ?_⟩, rfl⟩))
          rcases (Bool.or_eq_true _ _).mp hs with h | h
          · left; simpa [inWindow] using h
          · right; simpa using h
        · rename_i hs
          have hs : ringDist s.cfg k w.base < s.cfg.W ∧ flagGet w.valid k = true := by simpa [inWindow] using hs
          split
          · exact .inr (.inr (.inr (.inl ⟨w, k, hw, hc, hk, hs.1, hs.2, ‹_›, rfl⟩)))
          · rename_i ha
            exact .inr (.inr (.inr (.inr ⟨w, k, hw, hc, hk, hs.1, hs.2, by simpa using ha, complete_nat _ _ _ _ _⟩)))

theorem execAOntimeout_cases (s : State) :
    (s.sender = none ∧ execAOntimeout s = raiseFault .aNoinit s) ∨
    (∃ w, s.sender = some w ∧
      execAOntimeout s = .next (respond
        { s with
          sender := some { w with tseq := w.base }
          aTrun := true
          cntPacketsResent := s.cntPacketsResent + BitVec.ofNat 32 (resendSlots s.cfg w).length }
        .ok (if s.aTrun then 0 else faultMask .tSpur) (BitVec.ofNat 32 (resendSlots s.cfg w).length)
        ((resendSlots s.cfg w).map (fun k => .send .A (slotRead s w.pkts k)) ++ [.tStart .A s.cfg.rtt]))) := by
  unfold execAOntimeout
  split
  · exact .inl ⟨‹_›, rfl⟩
  · refine .inr ⟨_, ‹_›, ?_⟩
    dsimp only
    rw [complete_nat]
    simp [timerRestart]

/-! ### Entity B -/

theorem execBInit_cases (s : State) :
    (∃ r, s.receiver = some r ∧ execBInit s = raiseFault .bReinit s) ∨
    (s.receiver = none ∧ execBInit s = .next (respond { s with receiver := some (receiverInit s.cfg) } .ok 0 0 [])) := by
  unfold execBInit
  split
  · exact .inl ⟨_, ‹_›, rfl⟩
  · exact .inr ⟨‹_›, rfl⟩

/-- The state after the window branch of `B_ONPACKET`, with the window state `r` before the drain (R133, R134). -/
def drained (s : State) (r : Receiver) (st : Status) : State :=
  respond
    { s with
      receiver := some (drain s s.cfg.S r).1
      cntPacketsReceived := s.cntPacketsReceived + 1 }
    st 0 (BitVec.ofNat 32 (drain s s.cfg.S r).2.length)
    ((drain s s.cfg.S r).2.map (fun payload => .deliver .B payload) ++ [ackEvent s.cfg (drain s s.cfg.S r).1.base])

/-- The drain reads of the state only the configuration and the free value of an entry that holds nothing. -/
theorem drain_congr {s t : State} (hc : t.cfg = s.cfg) (hs : t.sample = s.sample) (turns : Nat) (r : Receiver) :
    drain t turns r = drain s turns r := by
  induction turns generalizing r with
  | zero => rfl
  | succ n ih => simp only [drain, hc, ih, slotRead, hs]

theorem drainAndAck_eq (s : State) (r : Receiver) (st : Status) :
    drainAndAck { s with cntPacketsReceived := s.cntPacketsReceived + 1 } r st = .next (drained s r st) := by
  have h := drain_congr (s := s) (t := { s with cntPacketsReceived := s.cntPacketsReceived + 1 }) rfl rfl s.cfg.S r
  unfold drainAndAck
  dsimp only
  rw [complete_nat, h]
  rfl

theorem execBOnpacket_cases (s : State) :
    (s.receiver = none ∧ execBOnpacket s = raiseFault .bNoinit s) ∨
    (∃ r, s.receiver = some r ∧ isCorrupted (packetOperand s) = true ∧
      execBOnpacket s = .next (respond s .corrupt 0 0 [ackEvent s.cfg r.base])) ∨
    (∃ r, s.receiver = some r ∧ isCorrupted (packetOperand s) = false ∧
      (fieldSlot s.cfg (packetOperand s).seqnum = none ∨
        ∃ q, fieldSlot s.cfg (packetOperand s).seqnum = some q ∧ s.cfg.W ≤ ringDist s.cfg q r.base) ∧
      execBOnpacket s = .next (respond { s with cntPacketsReceived := s.cntPacketsReceived + 1 } .outOfWindow 0 0
        [ackEvent s.cfg r.base])) ∨
    (∃ r q, s.receiver = some r ∧ isCorrupted (packetOperand s) = false ∧
      fieldSlot s.cfg (packetOperand s).seqnum = some q ∧ ringDist s.cfg q r.base < s.cfg.W ∧ flagGet r.rcvd q = true ∧
      execBOnpacket s = .next (drained s r .dupPkt)) ∨
    (∃ r q, s.receiver = some r ∧ isCorrupted (packetOperand s) = false ∧
      fieldSlot s.cfg (packetOperand s).seqnum = some q ∧ ringDist s.cfg q r.base < s.cfg.W ∧ flagGet r.rcvd q = false ∧
      execBOnpacket s = .next (drained s (bufferPacket r q (packetOperand s)) .ok)) := by
  unfold execBOnpacket
  split
  · exact .inl ⟨‹_›, rfl⟩
  · dsimp only
    split
    · exact .inr (.inl ⟨_, ‹_›, ‹_›, rfl⟩)
    · rename_i r hr hc
      have hc : isCorrupted (packetOperand s) = false := by simpa using hc
      split
      · exact .inr (.inr (.inl ⟨_, hr, hc, .inl ‹_›, rfl⟩))
      · rename_i q hq
        split
        · rename_i hs
          exact .inr (.inr (.inl ⟨_, hr, hc, .inr ⟨q, hq, by simpa [inWindow] using hs⟩, rfl⟩))
        · rename_i hs
          have hs : ringDist s.cfg q r.base < s.cfg.W := by simpa [inWindow] using hs
          split
          · exact .inr (.inr (.inr (.inl ⟨r, q, hr, hc, hq, hs, ‹_›, drainAndAck_eq _ _ _⟩)))
          · rename_i ha
            exact .inr (.inr (.inr (.inr ⟨r, q, hr, hc, hq, hs, by simpa using ha, drainAndAck_eq _ _ _⟩)))

/-! ### `RDSR` -/

/-- A register of R40 is refused only while its entity is not initialised. -/
theorem readReg_error {s : State} {reg : ReadReg} {i : Nat} {f : FaultName} (h : readReg s reg i = .error f) :
    f = .aNoinit ∨ f = .bNoinit := by
  cases reg <;> simp only [readReg, readSender, readReceiver, reduceCtorEq] at h <;> split at h <;> simp_all

theorem execRdsr_cases (n i : Nat) (s : State) :
    (∃ f, (f = .badarg ∨ f = .aNoinit ∨ f = .bNoinit) ∧ execRdsr n i s = raiseFault f s) ∨
    ∃ v, execRdsr n i s = .next (respond s .ok 0 v []) := by
  unfold execRdsr
  split
  · exact .inl ⟨_, .inl rfl, rfl⟩
  · split
    · split
      · rename_i f hf
        exact .inl ⟨f, .inr (readReg_error hf), rfl⟩
      · exact .inr ⟨_, rfl⟩
    · exact .inl ⟨_, .inl rfl, rfl⟩

/-! ### Over all commands -/

/-- The aborting faults a command can raise, and the timer fault it can flag (R151). -/
def abortingFaults : Instr → List FaultName
  | .rdist _ _ | .rinc _ | .rdec _ | .rinwin _ _ => [.badarg]
  | .csum | .chk | .bOutput | .bTimerint => []
  | .aInit => [.aReinit]
  | .aOutput | .aOnack | .aOntimeout => [.aNoinit]
  | .bInit => [.bReinit]
  | .bOnpacket => [.bNoinit]
  | .rdsr _ _ => [.badarg, .aNoinit, .bNoinit]

/-- The timer faults a command can flag (R151, R153). -/
def timerFaults : Instr → List FaultName
  | .aOutput => [.tDstart]
  | .aOnack => [.tDstop]
  | .aOntimeout => [.tSpur]
  | .rdist _ _ | .rinc _ | .rdec _ | .rinwin _ _ | .csum | .chk | .bOutput | .bTimerint | .aInit | .bInit | .bOnpacket
  | .rdsr _ _ => []

/-- Everything a command can answer: it raises one of its aborting faults, or it ends with a status that is not `REFUSED`
and flags nothing or one of its timer faults. -/
theorem exec_raises_or_completes (i : Instr) (s : State) :
    (∃ f ∈ abortingFaults i, exec i s = raiseFault f s) ∨
    (∃ t st fr v evs, exec i s = .next (respond t st fr v evs) ∧ st ≠ .refused ∧
      (fr = 0 ∨ ∃ f ∈ timerFaults i, fr = faultMask f) ∧ sameInputs s t) := by
  have ring : ∀ j : Instr, abortingFaults j = [.badarg] →
      (exec j s = raiseFault .badarg s ∨ ∃ v, exec j s = .next (respond s .ok 0 v [])) →
      (∃ f ∈ abortingFaults j, exec j s = raiseFault f s) ∨
      (∃ t st fr v evs, exec j s = .next (respond t st fr v evs) ∧ st ≠ .refused ∧
        (fr = 0 ∨ ∃ f ∈ timerFaults j, fr = faultMask f) ∧ sameInputs s t) := by
    rintro j ha (h | ⟨v, h⟩)
    · exact .inl ⟨_, by simp [ha], h⟩
    · exact .inr ⟨_, _, _, _, _, h, by decide, .inl rfl, rfl, rfl, rfl, rfl, rfl⟩
  cases i with
  | rdist x y => exact ring _ rfl (ring_cases s (.inl ⟨_, _, rfl⟩))
  | rinc x => exact ring _ rfl (ring_cases s (.inr (.inl ⟨_, rfl⟩)))
  | rdec x => exact ring _ rfl (ring_cases s (.inr (.inr (.inl ⟨_, rfl⟩))))
  | rinwin x base => exact ring _ rfl (ring_cases s (.inr (.inr (.inr ⟨_, _, rfl⟩))))
  | csum | chk | bOutput | bTimerint =>
    exact .inr ⟨_, _, _, _, _, rfl, by decide, .inl rfl, rfl, rfl, rfl, rfl, rfl⟩
  | aInit =>
    rcases execAInit_cases s with ⟨_, _, h⟩ | ⟨_, h⟩
    · exact .inl ⟨_, by simp [abortingFaults], h⟩
    · exact .inr ⟨_, _, _, _, _, h, by decide, .inl rfl, rfl, rfl, rfl, rfl, rfl⟩
  | aOutput =>
    rcases execAOutput_cases s with ⟨_, h⟩ | ⟨w, _, _, h⟩ | ⟨w, _, _, h⟩
    · exact .inl ⟨_, by simp [abortingFaults], h⟩
    · refine .inr ⟨_, _, _, _, _, h, by decide, ?_, rfl, rfl, rfl, rfl, rfl⟩
      rw [outputTimer_fr]; split
      · exact .inr ⟨_, by simp [timerFaults], rfl⟩
      · exact .inl rfl
    · exact .inr ⟨_, _, _, _, _, h, by decide, .inl rfl, rfl, rfl, rfl, rfl, rfl⟩
  | aOnack =>
    rcases execAOnack_cases s with ⟨_, h⟩ | ⟨_, _, _, h⟩ | ⟨_, _, _, _, h⟩ | ⟨_, _, _, _, _, _, _, _, h⟩ |
      ⟨_, _, _, _, _, _, _, _, h⟩
    · exact .inl ⟨_, by simp [abortingFaults], h⟩
    · exact .inr ⟨_, _, _, _, _, h, by decide, .inl rfl, rfl, rfl, rfl, rfl, rfl⟩
    · exact .inr ⟨_, _, _, _, _, h, by decide, .inl rfl, rfl, rfl, rfl, rfl, rfl⟩
    · exact .inr ⟨_, _, _, _, _, h, by decide, .inl rfl, rfl, rfl, rfl, rfl, rfl⟩
    · refine .inr ⟨_, _, _, _, _, h, by decide, ?_, rfl, rfl, rfl, rfl, rfl⟩
      rw [ackTimer_fr]; split
      · exact .inr ⟨_, by simp [timerFaults], rfl⟩
      · exact .inl rfl
  | aOntimeout =>
    rcases execAOntimeout_cases s with ⟨_, h⟩ | ⟨_, _, h⟩
    · exact .inl ⟨_, by simp [abortingFaults], h⟩
    · refine .inr ⟨_, _, _, _, _, h, by decide, ?_, rfl, rfl, rfl, rfl, rfl⟩
      split
      · exact .inl rfl
      · exact .inr ⟨_, by simp [timerFaults], rfl⟩
  | bInit =>
    rcases execBInit_cases s with ⟨_, _, h⟩ | ⟨_, h⟩
    · exact .inl ⟨_, by simp [abortingFaults], h⟩
    · exact .inr ⟨_, _, _, _, _, h, by decide, .inl rfl, rfl, rfl, rfl, rfl, rfl⟩
  | bOnpacket =>
    rcases execBOnpacket_cases s with ⟨_, h⟩ | ⟨_, _, _, h⟩ | ⟨_, _, _, _, h⟩ | ⟨_, _, _, _, _, _, _, h⟩ |
      ⟨_, _, _, _, _, _, _, h⟩
    · exact .inl ⟨_, by simp [abortingFaults], h⟩
    · exact .inr ⟨_, _, _, _, _, h, by decide, .inl rfl, rfl, rfl, rfl, rfl, rfl⟩
    · exact .inr ⟨_, _, _, _, _, h, by decide, .inl rfl, rfl, rfl, rfl, rfl, rfl⟩
    · exact .inr ⟨_, _, _, _, _, h, by decide, .inl rfl, rfl, rfl, rfl, rfl, rfl⟩
    · exact .inr ⟨_, _, _, _, _, h, by decide, .inl rfl, rfl, rfl, rfl, rfl, rfl⟩
  | rdsr n i =>
    rcases execRdsr_cases n i s with ⟨f, hf, h⟩ | ⟨_, h⟩
    · exact .inl ⟨f, by simpa [abortingFaults] using hf, h⟩
    · exact .inr ⟨_, _, _, _, _, h, by decide, .inl rfl, rfl, rfl, rfl, rfl, rfl⟩

end Sys2Proof.Machine
end

