-- ==== Sys2Proof/Laws/Decode.lean ====
section
/-!
SUPPORT. The fields of a packed command word, and how `decode` proceeds once the opcode's row is known.
-/

namespace Sys2Proof

theorem fits12_iff {n : Nat} : fits12 n = true ↔ n < 4096 := by simp [fits12]

theorem packCommand_toNat {op : BitVec 8} {a b : Nat} (ha : a < 4096) (hb : b < 4096) :
    (packCommand op a b).toNat = op.toNat + a * 2 ^ 8 + b * 2 ^ 20 := by
  have ho := op.isLt
  have h1 : op.toNat ||| a <<< 8 = op.toNat + a * 2 ^ 8 := by
    rw [Nat.lor_comm, ← Nat.shiftLeft_add_eq_or_of_lt (by simpa using ho), Nat.shiftLeft_eq, Nat.add_comm]
  have h2 : (op.toNat + a * 2 ^ 8) ||| b <<< 20 = op.toNat + a * 2 ^ 8 + b * 2 ^ 20 := by
    rw [Nat.lor_comm, ← Nat.shiftLeft_add_eq_or_of_lt (by omega), Nat.shiftLeft_eq, Nat.add_comm]
  have ea : a <<< 8 % 2 ^ 32 = a <<< 8 := Nat.mod_eq_of_lt (by rw [Nat.shiftLeft_eq]; omega)
  have eb : b <<< 20 % 2 ^ 32 = b <<< 20 := Nat.mod_eq_of_lt (by rw [Nat.shiftLeft_eq]; omega)
  simp only [packCommand, BitVec.toNat_or, BitVec.toNat_setWidth, BitVec.toNat_shiftLeft, BitVec.toNat_ofNat]
  rw [Nat.mod_eq_of_lt (show op.toNat < 2 ^ 32 by omega), Nat.mod_eq_of_lt (show a < 2 ^ 32 by omega),
    Nat.mod_eq_of_lt (show b < 2 ^ 32 by omega), ea, eb, h1, h2]

theorem fieldOp_packCommand {op : BitVec 8} {a b : Nat} (ha : a < 4096) (hb : b < 4096) :
    fieldOp (packCommand op a b) = op := by
  apply BitVec.eq_of_toNat_eq
  have ho := op.isLt
  simp only [fieldOp, BitVec.extractLsb'_toNat, packCommand_toNat ha hb, Nat.shiftRight_zero]
  omega

theorem fieldA_packCommand {op : BitVec 8} {a b : Nat} (ha : a < 4096) (hb : b < 4096) :
    fieldA (packCommand op a b) = a := by
  have ho := op.isLt
  simp only [fieldA, BitVec.extractLsb'_toNat, packCommand_toNat ha hb, Nat.shiftRight_eq_div_pow]
  omega

theorem fieldB_packCommand {op : BitVec 8} {a b : Nat} (ha : a < 4096) (hb : b < 4096) :
    fieldB (packCommand op a b) = b := by
  have ho := op.isLt
  simp only [fieldB, BitVec.extractLsb'_toNat, packCommand_toNat ha hb, Nat.shiftRight_eq_div_pow]
  omega

/-- A word is its three fields. -/
theorem packCommand_fields (cmd : Word) : packCommand (fieldOp cmd) (fieldA cmd) (fieldB cmd) = cmd := by
  apply BitVec.eq_of_toNat_eq
  have hc := cmd.isLt
  have ha : fieldA cmd < 4096 := by unfold fieldA; exact BitVec.isLt _
  have hb : fieldB cmd < 4096 := by unfold fieldB; exact BitVec.isLt _
  rw [packCommand_toNat ha hb]
  simp only [fieldOp, fieldA, fieldB, BitVec.extractLsb'_toNat, Nat.shiftRight_eq_div_pow]
  omega

theorem fieldA_lt (cmd : Word) : fieldA cmd < 4096 := by unfold fieldA; exact BitVec.isLt _

theorem fieldB_lt (cmd : Word) : fieldB cmd < 4096 := by unfold fieldB; exact BitVec.isLt _

/-- Every operand of a well-formed command fits its field. -/
theorem operands_lt {i : Instr} (h : i.wf = true) : i.operandA < 4096 ∧ i.operandB < 4096 := by
  cases i <;> simp_all [Instr.wf, Instr.operandA, Instr.operandB, fits12_iff]

/-- The mask of a format keeps the opcode and the fields that must be 0 (R72). -/
theorem masked_eq_iff (cmd : Word) (f : Format) (op : BitVec 8) :
    cmd &&& formatMask f = op.setWidth 32 ↔
      fieldOp cmd = op ∧ (f = .n → fieldA cmd = 0) ∧ (f = .n ∨ f = .a → fieldB cmd = 0) := by
  have e1 : ∀ k, (fieldA cmd).testBit k = (decide (k < 12) && cmd.getLsbD (8 + k)) := fun k => by
    simp only [fieldA]; rw [← BitVec.getLsbD, BitVec.getLsbD_extractLsb']
  have e2 : ∀ k, (fieldB cmd).testBit k = (decide (k < 12) && cmd.getLsbD (20 + k)) := fun k => by
    simp only [fieldB]; rw [← BitVec.getLsbD, BitVec.getLsbD_extractLsb']
  have z : ∀ n : Nat, n = 0 ↔ ∀ k, n.testBit k = false := fun n =>
    ⟨fun h k => by simp [h], fun h => Nat.eq_of_testBit_eq (by simpa using h)⟩
  have hop : fieldOp cmd = op ↔ ∀ k, k < 8 → cmd.getLsbD k = op.getLsbD k := by
    constructor
    · rintro rfl k hk; simp [fieldOp, hk]
    · intro h; apply BitVec.eq_of_getLsbD_eq; intro k hk; simp [fieldOp, hk, h k hk]
  have m : cmd &&& formatMask f = op.setWidth 32 ↔
      ∀ k, k < 32 → (cmd.getLsbD k && (formatMask f).getLsbD k) = op.getLsbD k := by
    constructor
    · intro h k hk
      have := congrArg (fun v => v.getLsbD k) h
      simpa [hk] using this
    · intro h; apply BitVec.eq_of_getLsbD_eq; intro k hk
      simpa [hk] using h k hk
  have big : ∀ k, 8 ≤ k → op.getLsbD k = false := fun k hk => BitVec.getLsbD_of_ge _ _ hk
  have kn : ∀ k, k < 32 → (formatMask .n).getLsbD k = true := by decide
  have ka : ∀ k, k < 32 → (formatMask .a).getLsbD k = decide (k < 8 ∨ 20 ≤ k) := by decide
  have kab : ∀ k, k < 32 → (formatMask .ab).getLsbD k = decide (k < 8) := by decide
  rw [m, hop, z (fieldA cmd), z (fieldB cmd)]
  cases f
  · simp only [true_implies, true_or, e1, e2]
    constructor
    · intro h
      refine ⟨fun k hk => ?_, fun k => ?_, fun k => ?_⟩
      · simpa [kn k (by omega)] using h k (by omega)
      · by_cases hk : k < 12
        · have := h (8 + k) (by omega); rw [kn _ (by omega), big _ (by omega)] at this; simpa [hk] using this
        · simp [hk]
      · by_cases hk : k < 12
        · have := h (20 + k) (by omega); rw [kn _ (by omega), big _ (by omega)] at this; simpa [hk] using this
        · simp [hk]
    · rintro ⟨h1, h2, h3⟩ k hk
      rw [kn k hk, Bool.and_true]
      by_cases h8 : k < 8
      · exact h1 k h8
      · rw [big k (by omega)]
        by_cases h20 : k < 20
        · have := h2 (k - 8); rw [show 8 + (k - 8) = k by omega] at this; simpa [show k - 8 < 12 by omega] using this
        · have := h3 (k - 20); rw [show 20 + (k - 20) = k by omega] at this; simpa [show k - 20 < 12 by omega] using this
  · simp only [reduceCtorEq, false_implies, false_or, true_implies, true_and, e2]
    constructor
    · intro h
      refine ⟨fun k hk => ?_, fun k => ?_⟩
      · simpa [ka k (by omega), hk] using h k (by omega)
      · by_cases hk : k < 12
        · have := h (20 + k) (by omega); rw [ka _ (by omega), big _ (by omega)] at this; simpa [hk] using this
        · simp [hk]
    · rintro ⟨h1, h3⟩ k hk
      rw [ka k hk]
      by_cases h8 : k < 8
      · simpa [h8] using h1 k h8
      · rw [big k (by omega)]
        by_cases h20 : k < 20
        · simp [h8, show ¬ 20 ≤ k by omega]
        · have := h3 (k - 20); rw [show 20 + (k - 20) = k by omega] at this
          simp [show k - 20 < 12 by omega] at this; simp [this]
  · simp only [reduceCtorEq, false_implies, or_self, and_true]
    constructor
    · intro h k hk; simpa [kab k (by omega), hk] using h k (by omega)
    · intro h1 k hk
      rw [kab k hk]
      by_cases h8 : k < 8
      · simpa [h8] using h1 k h8
      · simp [h8, big k (by omega)]

end Sys2Proof
end

