-- ==== Sys2Proof/Laws/PerInstr.lean ====
section
/-!
SUPPORT. Statements made of every command, one lemma per constructor.
-/

namespace Sys2Proof.Laws.EncodedFields

/-- R71, R74, R75: the fields of a well-formed command's word are its opcode and its two operands, 0 where it has none. -/
def Statement (i : Instr) : Prop :=
  i.wf = true → fieldOp (encode i) = i.opcode ∧ fieldA (encode i) = i.operandA ∧ fieldB (encode i) = i.operandB

/-- No field of `packCommand` overlaps another, so the three fields of a word read back. -/
theorem of_operands_lt (i : Instr) : Statement i := fun h =>
  have ⟨ha, hb⟩ := operands_lt h
  ⟨fieldOp_packCommand ha hb, fieldA_packCommand ha hb, fieldB_packCommand ha hb⟩

theorem rdist (x y : Nat) : Statement (.rdist x y) := of_operands_lt _
theorem rinc (x : Nat) : Statement (.rinc x) := of_operands_lt _
theorem rdec (x : Nat) : Statement (.rdec x) := of_operands_lt _
theorem rinwin (x base : Nat) : Statement (.rinwin x base) := of_operands_lt _
theorem csum : Statement .csum := of_operands_lt _
theorem chk : Statement .chk := of_operands_lt _
theorem aInit : Statement .aInit := of_operands_lt _
theorem aOutput : Statement .aOutput := of_operands_lt _
theorem aOnack : Statement .aOnack := of_operands_lt _
theorem aOntimeout : Statement .aOntimeout := of_operands_lt _
theorem bInit : Statement .bInit := of_operands_lt _
theorem bOnpacket : Statement .bOnpacket := of_operands_lt _
theorem bOutput : Statement .bOutput := of_operands_lt _
theorem bTimerint : Statement .bTimerint := of_operands_lt _
theorem rdsr (n i : Nat) : Statement (.rdsr n i) := of_operands_lt _

end Sys2Proof.Laws.EncodedFields
end

