-- ==== Sys2Proof/Laws/Program.lean ====
section
/-!
SUPPORT. What a program line gives: a legal payload has `P` bytes, and the bytes of an image beyond `12 + P` are not read.
-/

namespace Sys2Proof.Machine

/-- A payload that is no error of the program has exactly `P` bytes (R16, R83). -/
theorem payloadBytes_length {c : Config} {form : PayloadForm} {bytes : List Byte} (h : payloadBytes c form = .ok bytes) :
    bytes.length = c.P := by
  cases form with
  | fill b => cases h; simp
  | text chars =>
    simp only [payloadBytes] at h
    split at h <;> (try split at h) <;> cases h
    simpa

/-- `PktUnpack` reads the `12 + P` bytes of the image and no other (R53, R56). -/
theorem pktUnpack_congr {P : Nat} {f g : Nat → Byte} (h : ∀ k < 12 + P, f k = g k) : pktUnpack P f = pktUnpack P g := by
  have field : ∀ a, a + 4 ≤ 12 + P → memRead f a 4 = memRead g a 4 := fun a ha => by
    unfold memRead
    congr 1
    exact List.map_congr_left fun i hi => h _ (by have := List.mem_range.1 hi; omega)
  simp only [pktUnpack, field 0 (by omega), field 4 (by omega), field (8 + P) (by omega)]
  congr 1
  exact List.map_congr_left fun i hi => h _ (by have := List.mem_range.1 hi; omega)

end Sys2Proof.Machine
end

