-- ==== Sys2Proof/Tests/Slice0.lean ====
section
/-!
SUPPORT. Tests of one command or one step each, with results from spec/95_test_vectors.md (V<n>.<m>), the refusals of `Instr.wf`, and
for every statement with hypotheses a witness that meets them, at the boundary values of its clauses.
-/

namespace Sys2Proof.Tests

open Sys2Proof.Machine

/-! ### Helpers: small states and the parts of an outcome that a test looks at -/

/-- The response and the events of an outcome. -/
def answer : Host.Outcome State Fault Refusal → Option (Option Response × List Event)
  | .next t => some (t.resp, t.events)
  | .fault _ | .refused _ => none

/-- One part of an outcome's next state. -/
def after {α : Type} (f : State → α) : Host.Outcome State Fault Refusal → Option α
  | .next t => some (f t)
  | .fault _ | .refused _ => none

/-- The response `(OK, 0, v)` with no event. -/
def okValue (v : Word) : Option (Option Response × List Event) := some (some ⟨.ok, 0, v⟩, [])

/-- The response `(REFUSED, m, 0)` with no event. -/
def refusedWith (m : BitVec 9) : Option (Option Response × List Event) := some (some ⟨.refused, m, 0⟩, [])

/-- A state with the given bytes in `IBUF`. -/
def withBytes (s : State) (bytes : List Byte) : State := { s with ibuf := Memory.ofBytes bytes }

/-- An image of the reference instance: the bytes of the two header fields, one payload byte twenty times, the checksum's bytes. -/
def imageBytes (seq ack : List Byte) (c : Byte) (sum : List Byte) : List Byte := seq ++ ack ++ List.replicate 20 c ++ sum

/-- `MSG(c)`. -/
def msg (c : Byte) : List Byte := imageBytes [0, 0, 0, 0] [0, 0, 0, 0] c [0, 0, 0, 0]

/-- `K(n)` for `n < 12`: `00000000 nn000000 30*20 cc030000` with `cc = 0xC0 + n`. -/
def ackBytes (n : Byte) : List Byte := imageBytes [0, 0, 0, 0] [n, 0, 0, 0] 0x30 [0xC0 + n, 0x03, 0, 0]

/-- The record of `K(n)`. -/
def ackRecord (n : Nat) : Packet := ⟨0, BitVec.ofNat 32 n, List.replicate 20 0x30, BitVec.ofNat 32 (960 + n)⟩

/-- The record of `D(i)`, the packet that `A_OUTPUT MSG(0x61 + i)` builds with `A_NEXT = i`. -/
def dataRecord (i : Nat) : Packet :=
  ⟨BitVec.ofNat 32 i, 0xFFFFFFFF, List.replicate 20 (BitVec.ofNat 8 (0x61 + i)), BitVec.ofNat 32 (1939 + 21 * i)⟩

/-- The bytes of `D(0)`. -/
def data0Bytes : List Byte := imageBytes [0, 0, 0, 0] [0xff, 0xff, 0xff, 0xff] 0x61 [0x93, 0x07, 0, 0]

/-- Twelve flags, those at the given slots set. -/
def flags (ks : List Nat) : List Bool := (List.range 12).map (fun k => ks.contains k)

/-- A sender window of the reference instance, `A[base next . tseq | valid | acked]`, its slots holding `D(i)`. -/
def window (base next tseq : Nat) (valid acked : List Nat) : Sender :=
  ⟨base, next, tseq, flags valid, flags acked, valid.map (fun i => (i, dataRecord i))⟩

/-- A state of the reference instance with that window and the timer running or not. -/
def senderAt (run : Bool) (w : Sender) : State := { State.reset with sender := some w, aTrun := run }

/-- A receiver window of the reference instance, `B[base | rcvd]`, its slots holding `D(i)`. -/
def receiverWindow (base : Nat) (rcvd : List Nat) : Receiver := ⟨base, flags rcvd, rcvd.map (fun i => (i, dataRecord i))⟩

/-- A state of the reference instance with that window. -/
def receiverAt (r : Receiver) : State := { State.reset with receiver := some r }

/-- A sender with packet 0 outstanding and the timer running. -/
def oneOut : State := senderAt true (window 0 1 0 [0] [])

/-! ### Ill-formed terms are refused by `Instr.wf` -/

theorem test_wf_refuses_rdist_x : (Instr.rdist 4096 0).wf = false := by decide
theorem test_wf_refuses_rdist_y : (Instr.rdist 0 4096).wf = false := by decide
theorem test_wf_refuses_rinc : (Instr.rinc 4096).wf = false := by decide
theorem test_wf_refuses_rdec : (Instr.rdec 4096).wf = false := by decide
theorem test_wf_refuses_rinwin_x : (Instr.rinwin 4096 0).wf = false := by decide
theorem test_wf_refuses_rinwin_base : (Instr.rinwin 0 4096).wf = false := by decide
theorem test_wf_refuses_rdsr_n : (Instr.rdsr 4096 0).wf = false := by decide
theorem test_wf_refuses_rdsr_i : (Instr.rdsr 0 4096).wf = false := by decide

/-! ### Decoding: words written out as `b`, `a`, `op` from R71 and the opcodes of R74 -/

/-- `RDIST 2, 10`, `RINC 11`, `RDEC 0`, `RINWIN 2, 9` (V1.1 to V1.4). -/
theorem test_decode_ring :
    decode 0b000000001010_000000000010_00010000#32 = .ok (.rdist 2 10) ∧
    decode 0b000000000000_000000001011_00010001#32 = .ok (.rinc 11) ∧
    decode 0b000000000000_000000000000_00010010#32 = .ok (.rdec 0) ∧
    decode 0b000000001001_000000000010_00010011#32 = .ok (.rinwin 2 9) := by decide

theorem test_decode_checksum :
    decode 0b000000000000_000000000000_00100000#32 = .ok .csum ∧
    decode 0b000000000000_000000000000_00100001#32 = .ok .chk := by decide

theorem test_decode_sender :
    decode 0b000000000000_000000000000_00110000#32 = .ok .aInit ∧
    decode 0b000000000000_000000000000_00110001#32 = .ok .aOutput ∧
    decode 0b000000000000_000000000000_00110010#32 = .ok .aOnack ∧
    decode 0b000000000000_000000000000_00110011#32 = .ok .aOntimeout := by decide

theorem test_decode_receiver :
    decode 0b000000000000_000000000000_01000000#32 = .ok .bInit ∧
    decode 0b000000000000_000000000000_01000001#32 = .ok .bOnpacket ∧
    decode 0b000000000000_000000000000_01000010#32 = .ok .bOutput ∧
    decode 0b000000000000_000000000000_01000011#32 = .ok .bTimerint := by decide

/-- `RDSR 0x0C, 4` and `RDSR 0x1C, 0` (V1.5, V1.6). -/
theorem test_decode_system :
    decode 0b000000000100_000000001100_01010000#32 = .ok (.rdsr 0x0C 4) ∧
    decode 0b000000000000_000000011100_01010000#32 = .ok (.rdsr 0x1C 0) := by decide

/-- V1.8 to V1.12 and V1.14, V1.15: unknown opcodes, and must-be-zero fields that are not zero. -/
theorem test_decode_rejects :
    decode 0x00000000 = .error .unknownOpcode ∧ decode 0x000000FF = .error .unknownOpcode ∧
    decode 0x00000130 = .error .nonzeroField ∧ decode 0x00100011 = .error .nonzeroField ∧
    decode 0x00100041 = .error .nonzeroField ∧ decode 0x00000014 = .error .unknownOpcode ∧
    decode 0x00000034 = .error .unknownOpcode ∧ decode 0x00000044 = .error .unknownOpcode ∧
    decode 0x00000051 = .error .unknownOpcode ∧ decode 0x00000022 = .error .unknownOpcode := by decide

/-- V1.1, V1.2, V1.4, V1.5, V1.7. -/
theorem test_encode :
    encode (.rdist 2 10) = 0x00A00210 ∧ encode (.rinc 11) = 0x00000B11 ∧ encode (.rinwin 2 9) = 0x00900213 ∧
    encode (.rdsr 0x0C 4) = 0x00400C50 ∧ encode .aOntimeout = 0x00000033 := by decide

/-- A table word is read as one command word. -/
theorem test_decodeTableWord : decodeTableWord 32 0x00400C50 = some (.rdsr 0x0C 4) := by decide

/-! ### RINGCMP -/

/-- V2.4. -/
theorem test_rdist : answer (exec (.rdist 2 10) .reset) = okValue 4 := by decide
/-- V2.28. -/
theorem test_rdist_badarg : answer (exec (.rdist 0 12) .reset) = refusedWith 0x002 := by decide
/-- V2.13. -/
theorem test_rinc_wraps : answer (exec (.rinc 11) .reset) = okValue 0 := by decide
/-- V2.26. -/
theorem test_rinc_badarg : answer (exec (.rinc 12) .reset) = refusedWith 0x002 := by decide
/-- V2.14. -/
theorem test_rdec_wraps : answer (exec (.rdec 0) .reset) = okValue 11 := by decide
/-- V2.30. -/
theorem test_rdec_badarg : answer (exec (.rdec 4095) .reset) = refusedWith 0x002 := by decide
/-- V2.21. -/
theorem test_rinwin_inside : answer (exec (.rinwin 2 9) .reset) = okValue 1 := by decide
/-- V2.22. -/
theorem test_rinwin_outside : answer (exec (.rinwin 3 9) .reset) = okValue 0 := by decide

/-! ### CSUM -/

/-- V3.9. -/
theorem test_csum : answer (exec .csum (withBytes .reset
    (imageBytes [0x03, 0, 0, 0] [0xff, 0xff, 0xff, 0xff] 0x61 [0, 0, 0, 0]))) = okValue 1942 := by decide
/-- V3.15. -/
theorem test_csum_wraps : answer (exec .csum (withBytes .reset
    (imageBytes [0xff, 0xff, 0xff, 0x7f] [0x01, 0, 0, 0] 0 [0, 0, 0, 0]))) = okValue 0x80000000 := by decide
/-- V3.13: the top byte alone differs. -/
theorem test_chk_top_byte : answer (exec .chk (withBytes .reset
    (imageBytes [0x03, 0, 0, 0] [0xff, 0xff, 0xff, 0xff] 0x61 [0x96, 0x07, 0, 0x01]))) = okValue 1 := by decide
/-- V3.11. -/
theorem test_chk_sealed : answer (exec .chk (withBytes .reset
    (imageBytes [0x03, 0, 0, 0] [0xff, 0xff, 0xff, 0xff] 0x61 [0x96, 0x07, 0, 0]))) = okValue 0 := by decide

/-! ### Entity A -/

/-- V4.14. -/
theorem test_aInit_twice : answer (exec .aInit (senderAt false (window 0 0 0 [] []))) = refusedWith 0x008 := by decide
/-- R42. -/
theorem test_aInit : after (·.sender) (exec .aInit .reset) = some (some (window 0 0 0 [] [])) := by decide

/-- V4.23: `A_NEXT` wraps. -/
theorem test_aOutput_wraps :
    answer (exec .aOutput (withBytes (senderAt false (window 11 11 0 [] [])) (msg 0x41))) =
      some (some ⟨.ok, 0, 11⟩, [.send .A ⟨11, 0xFFFFFFFF, List.replicate 20 0x41, 1310⟩, .tStart .A 16]) ∧
    after (fun t => t.sender.map (fun w => (w.base, w.next, w.tseq)))
      (exec .aOutput (withBytes (senderAt false (window 11 11 0 [] [])) (msg 0x41))) = some (some (11, 0, 11)) := by decide

/-- V4.22. -/
theorem test_aOutput_full :
    answer (exec .aOutput (withBytes (senderAt true (window 6 0 6 [6, 7, 8, 9, 10, 11] [])) (msg 0x50))) =
      some (some ⟨.windowFull, 0, 0⟩, []) := by decide

/-- V4.9: the slide over slots 0, 1, 2. -/
theorem test_aOnack_slides :
    answer (exec .aOnack (withBytes (senderAt true (window 0 4 0 [0, 1, 2, 3] [1, 2])) (ackBytes 0))) =
      some (some ⟨.ok, 0, 3⟩, [.tStop .A, .tStart .A 16]) ∧
    after (·.sender) (exec .aOnack (withBytes (senderAt true (window 0 4 0 [0, 1, 2, 3] [1, 2])) (ackBytes 0))) =
      some (some (window 3 4 3 [3] [])) := by decide

/-- V4.3: `acknum = NOTINUSE`. -/
theorem test_aOnack_stale :
    answer (exec .aOnack (withBytes (senderAt true (window 0 4 0 [0, 1, 2, 3] []))
      (imageBytes [0, 0, 0, 0] [0xff, 0xff, 0xff, 0xff] 0x30 [0xbf, 0x03, 0, 0]))) =
      some (some ⟨.staleAck, 0, 0⟩, []) := by decide

/-- V4.21: the resends go round the ring from `A_BASE`. -/
theorem test_aOntimeout_resends :
    answer (exec .aOntimeout (senderAt true (window 10 2 10 [0, 1, 10, 11] []))) =
      some (some ⟨.ok, 0, 4⟩, [.send .A (dataRecord 10), .send .A (dataRecord 11), .send .A (dataRecord 0),
        .send .A (dataRecord 1), .tStart .A 16]) := by decide

/-- V4.17: a spurious timeout goes on. -/
theorem test_aOntimeout_spurious :
    answer (exec .aOntimeout (senderAt false (window 0 0 0 [] []))) =
      some (some ⟨.ok, 0x100, 0⟩, [.tStart .A 16]) := by decide

/-! ### Entity B -/

/-- V5.13. -/
theorem test_bInit_twice : answer (exec .bInit (receiverAt (receiverWindow 3 [5]))) = refusedWith 0x020 := by decide
/-- R42. -/
theorem test_bInit : after (·.receiver) (exec .bInit .reset) = some (some (receiverWindow 0 [])) := by decide

/-- V5.9: slots 1 and 2 are drained. -/
theorem test_bOnpacket_drains :
    answer (exec .bOnpacket (withBytes (receiverAt (receiverWindow 1 [2, 5]))
      (imageBytes [0x01, 0, 0, 0] [0xff, 0xff, 0xff, 0xff] 0x62 [0xa8, 0x07, 0, 0]))) =
      some (some ⟨.ok, 0, 2⟩, [.deliver .B (List.replicate 20 0x62), .deliver .B (List.replicate 20 0x63),
        .send .B (ackRecord 2)]) := by decide

/-- V5.3: corruption comes before the range of the sequence number. -/
theorem test_bOnpacket_corrupt :
    answer (exec .bOnpacket (withBytes (receiverAt (receiverWindow 0 []))
      (imageBytes [0x3f, 0x42, 0x0f, 0] [0xff, 0xff, 0xff, 0xff] 0x61 [0x93, 0x07, 0, 0]))) =
      some (some ⟨.corrupt, 0, 0⟩, [.send .B (ackRecord 11)]) := by decide

/-- Section 2.5: the no-ops answer `OK` before `B_INIT` too. -/
theorem test_bOutput : answer (exec .bOutput .reset) = okValue 0 := by decide
theorem test_bTimerint : answer (exec .bTimerint .reset) = okValue 0 := by decide

/-! ### `RDSR`, faults, packed forms, one step -/

/-- V6.12: valid and acknowledged. -/
theorem test_rdsr_slot : answer (exec (.rdsr 0x0C 2) (senderAt true (window 0 4 0 [0, 1, 2, 3] [2]))) = okValue 3 := by
  decide

/-- V6.1, V6.2, V6.20. -/
theorem test_rdsr_configuration :
    cfg0Word .ref = 0x000C0006 ∧ cfg1Word .ref = 0x00040014 ∧
    cfg0Word ⟨1, 2, 4, 16, by decide, by decide, by decide, by decide, by decide⟩ = 0x00020001 ∧
    cfg1Word ⟨1, 2, 4, 16, by decide, by decide, by decide, by decide, by decide⟩ = 0x00010004 := by decide

/-- V6.9, V6.11: `BADARG` is checked before `A_NOINIT`. -/
theorem test_rdsr_refusals :
    answer (exec (.rdsr 0x08 1) .reset) = refusedWith 0x002 ∧ answer (exec (.rdsr 0x0C 4) .reset) = refusedWith 0x004 := by
  decide

/-- V1.10 as a step from reset, through the host's port. -/
theorem test_step_illegal : answer (step (State.reset.withFetchWord 32 0x00000130)) = refusedWith 0x001 := by decide

/-- V2.5 as a step from reset, through the host's port. -/
theorem test_step_command : answer (core.step (core.reset.withFetchWord 32 0x00200A10)) = okValue 8 := by decide

/-- V1.16 to V1.18. -/
theorem test_response_packing :
    respStatusWord ⟨.refused, 0x004, 0⟩ = 0x00000480 ∧ respStatusWord ⟨.ok, 0x100, 0⟩ = 0x00010000 ∧
    respStatusWord ⟨.staleAck, 0, 0⟩ = 0x00000003 := by decide

/-- V1.19 to V1.22. -/
theorem test_event_bytes :
    eventBytes (.send .A (dataRecord 0)) = 0x00 :: data0Bytes ∧
    eventBytes (.deliver .B (List.replicate 20 0x61)) = 0x05 :: List.replicate 20 0x61 ∧
    eventBytes (.tStop .A) = [0x03] ∧ eventBytes (.send .B (ackRecord 5)) = 0x04 :: ackBytes 5 := by decide

/-! ### Programs -/

/-- The line of R105's example, `CHK pkt(3, -1, fill(0x61), 1941)`, executed: one off, so corrupted. -/
theorem test_program_line :
    (match assemble .ref [⟨.chk, .pkt 3 (-1) (.fill 0x61) (.number 1941)⟩] with
     | .ok moves => answer (step (State.reset.withProgram moves))
     | .error _ => none) = okValue 1 := by decide

/-- R83: a text shorter than `P` is an error of the program; V1.1's operands as text. -/
theorem test_program_errors :
    assembleLine .ref ⟨.aOutput, .msg (.text ['a', 'b'])⟩ = .error .payloadLength ∧
    assembleLine .ref ⟨.rinc 4096, .nothing⟩ = .error .operand ∧
    (Instr.rdist 2 10).operands = [2, 10] ∧ (Instr.rdist 2 10).mnemonic = "RDIST" := by decide

/-! ### Witnesses: states and operands that meet the hypotheses of the statements -/

/-- `DecodeOfEncodeIsTheCommand`: operands at both ends of their range. -/
theorem witness_decode_of_encode :
    (Instr.rdist 4095 0).wf = true ∧ (Instr.rinwin 0 4095).wf = true ∧ (Instr.rdsr 4095 4095).wf = true ∧
    Instr.bTimerint.wf = true := by decide

/-- `EncodeOfDecodeIsTheWord`. -/
theorem witness_encode_of_decode : decode 0xFFFFFF13 = .ok (.rinwin 4095 4095) := by decide

/-- `DecodingProcedure`, first clause, and `IllegalWordIsRefused`: an unknown opcode, and a non-zero field of each format. -/
theorem witness_illegal_words :
    isIllegalWord 0x00000000 = true ∧ isIllegalWord 0x00100012 = true ∧ isIllegalWord 0x00000150 = false ∧
    isIllegalWord 0x00000121 = true ∧ isIllegalWord 0x80000043 = true := by decide

/-- `DecodingProcedure`, second clause: a legal word of every opcode. -/
theorem witness_legal_words :
    ([0xFFFFFF10, 0x000FFF11, 0x00000012, 0xFFF00013, 0x20, 0x21, 0x30, 0x31, 0x32, 0x33, 0x40, 0x41, 0x42, 0x43,
      0x000FFF50].all fun cmd => !isIllegalWord cmd) = true := by decide

/-- `StepExecutesTheDecodedCommand`. -/
theorem witness_step_command :
    (State.reset.withFetchWord 32 0x20).inputs = .command 0x20 [] :: [] ∧ decode 0x20 = .ok .csum := by decide

/-- `IllegalWordIsRefused`. -/
theorem witness_step_illegal :
    (State.reset.withFetchWord 32 0x130).inputs = .command 0x130 [] :: [] ∧ isIllegalWord 0x130 = true := by decide

/-- `ResetMoveResetsEverything`, `IdleCoreHoldsItsState`. -/
theorem witness_reset_and_idle :
    ({ oneOut with inputs := [.reset] } : State).inputs = .reset :: [] ∧ oneOut.inputs = [] := by decide

/-- `StepKeepsTheConfiguration`, `StepKeepsMemoryCanonical`: a step that takes a command. -/
theorem witness_step_next : ∃ t, step (oneOut.withFetchWord 32 0x33) = .next t := ⟨_, rfl⟩

/-- `RdistResult`, `RincResult`, `RdecResult`: the last sequence number, and 0. -/
theorem witness_ring_operands : 11 < State.reset.cfg.S ∧ 0 < State.reset.cfg.S := by decide

/-- `RinwinResult`: the last number inside the window of base 9, and the first outside. -/
theorem witness_rinwin :
    (∃ i < State.reset.cfg.W, 2 = (9 + i) % State.reset.cfg.S) ∧ (∀ i < State.reset.cfg.W, 3 ≠ (9 + i) % State.reset.cfg.S) := by
  decide

/-- `RingOperandOutOfRange`: the first number outside, on either side; a sender and a receiver command with a response. -/
theorem witness_ring_out_of_range :
    State.reset.cfg.S ≤ 12 ∧ isSenderCommand .aOnack = true ∧ isReceiverCommand .bOnpacket = true ∧
    (∃ t r, exec .aOnack .reset = .next t ∧ t.resp = some r) ∧ ∃ t r, exec .bOnpacket .reset = .next t ∧ t.resp = some r := by
  refine ⟨by decide, rfl, rfl, ⟨_, _, rfl, rfl⟩, ⟨_, _, rfl, rfl⟩⟩

/-- `RingLaws`: three numbers, two of them different. -/
theorem witness_ring_laws : 0 < Config.ref.S ∧ 11 < Config.ref.S ∧ 5 < Config.ref.S ∧ (0 : Nat) ≠ 11 := by decide

/-- `DeliveredPacketsAreOutOfWindow`: the oldest of the `W` delivered packets (distance `W`), and the newest (distance 1). -/
theorem witness_delivered :
    (ringDist Config.ref 6 0 = 6 ∧ isCorrupted (packetOperand (withBytes (receiverAt (receiverWindow 6 [])) data0Bytes)) = false ∧
      s32 (packetOperand (withBytes (receiverAt (receiverWindow 6 [])) data0Bytes)).seqnum = 0) ∧
    (ringDist Config.ref 1 0 = 1 ∧ isCorrupted (packetOperand (withBytes (receiverAt (receiverWindow 1 [])) data0Bytes)) = false ∧
      s32 (packetOperand (withBytes (receiverAt (receiverWindow 1 [])) data0Bytes)).seqnum = 0) := by decide

/-- `ChkResult`: an image with the checksum in place, and one whose field differs in the top byte. -/
theorem witness_chk :
    (let s := withBytes .reset data0Bytes
     let b := ibufByte s
     (b 31 ++ b 30 ++ b 29 ++ b 28 : BitVec 32) = computeChecksum (packetOperand s)) ∧
    (let s := withBytes .reset (imageBytes [0, 0, 0, 0] [0xff, 0xff, 0xff, 0xff] 0x61 [0x93, 0x07, 0, 0x01])
     let b := ibufByte s
     (b 31 ++ b 30 ++ b 29 ++ b 28 : BitVec 32) ≠ computeChecksum (packetOperand s)) := by decide

/-- `SingleFieldChangeIsDetected`, `CompensatingChangesGoUndetected`: a sealed packet, its last payload byte, a different value, a
difference the byte holds, and another order of the payload. -/
theorem witness_packet_changes :
    isCorrupted (dataRecord 3) = false ∧ 19 < (dataRecord 3).payload.length ∧ (0x65 : Byte) ≠ (dataRecord 3).payload[19] ∧
    0x64 ≤ ((dataRecord 3).payload[19]).toNat ∧ (5 : Word) ≠ (dataRecord 3).seqnum ∧
    (dataRecord 3).payload.reverse.Perm (dataRecord 3).payload :=
  ⟨by decide, by decide, by decide, by decide, by decide, List.reverse_perm _⟩

/-- `AutoChecksumIsSealed`: a legal payload in either form. -/
theorem witness_auto_checksum :
    payloadBytes State.reset.cfg (.fill 0x61) = .ok (List.replicate 20 0x61) ∧
    payloadBytes State.reset.cfg (.text (List.replicate 20 'a')) = .ok (List.replicate 20 0x61) := by decide

/-- `InitCommandsSetTheirValues`, `SenderGuards`, `ReceiverGuards`: before and after the two initialisations. -/
theorem witness_guards :
    State.reset.sender = none ∧ State.reset.receiver = none ∧ State.reset.aInitd = false ∧ State.reset.bInitd = false ∧
    oneOut.aInitd = true ∧ (receiverAt (receiverWindow 0 [])).bInitd = true := by decide

/-- `OutputIsAccepted`: an empty window (the timer starts), an empty window with the timer running after a spurious timeout (a
double start), and a window with one place left. -/
theorem witness_output_accepted :
    (senderAt false (window 0 0 0 [] [])).sender = some (window 0 0 0 [] []) ∧
    (senderAt true (window 0 0 0 [] [])).aTrun = true ∧
    ringDist Config.ref (window 0 0 0 [] []).next (window 0 0 0 [] []).base < Config.ref.W ∧
    ringDist Config.ref (window 8 1 8 [8, 9, 10, 11, 0] []).next (window 8 1 8 [8, 9, 10, 11, 0] []).base + 1 = Config.ref.W := by
  decide

/-- `OutputIntoAFullWindowIsDropped`: exactly `W` outstanding, across the end of the ring. -/
theorem witness_output_full :
    Config.ref.W ≤ ringDist Config.ref (window 6 0 6 [6, 7, 8, 9, 10, 11] []).next (window 6 0 6 [6, 7, 8, 9, 10, 11] []).base := by
  decide

/-- `AckEarlyExits`: a corrupted image; `acknum` -1; `acknum` `S`; a number just out of the window; a slot in the window that is not
valid; an acknowledged slot. -/
theorem witness_ack_exits :
    isCorrupted (packetOperand (withBytes oneOut (imageBytes [0, 0, 0, 0] [2, 0, 0, 0] 0x30 [0xc3, 0x03, 0, 0]))) = true ∧
    (let p := packetOperand (withBytes oneOut (imageBytes [0, 0, 0, 0] [0xff, 0xff, 0xff, 0xff] 0x30 [0xbf, 0x03, 0, 0]))
     p.checksum = computeChecksum p ∧ p.acknum.toInt < 0) ∧
    (let p := packetOperand (withBytes oneOut (imageBytes [0, 0, 0, 0] [12, 0, 0, 0] 0x30 [0xcc, 0x03, 0, 0]))
     p.checksum = computeChecksum p ∧ (Config.ref.S : Int) ≤ p.acknum.toInt) ∧
    (let p := packetOperand (withBytes oneOut (ackBytes 6))
     p.checksum = computeChecksum p ∧ Config.ref.W ≤ ringDist Config.ref p.acknum.toInt.toNat 0) ∧
    (let p := packetOperand (withBytes oneOut (ackBytes 5))
     p.checksum = computeChecksum p ∧ flagGet (window 0 1 0 [0] []).valid p.acknum.toInt.toNat = false) ∧
    (let p := packetOperand (withBytes oneOut (ackBytes 1))
     p.checksum = computeChecksum p ∧ ringDist Config.ref p.acknum.toInt.toNat 0 < Config.ref.W ∧
       flagGet (window 0 4 0 [0, 1, 2, 3] [1]).valid p.acknum.toInt.toNat = true ∧
       flagGet (window 0 4 0 [0, 1, 2, 3] [1]).acked p.acknum.toInt.toNat = true) := by decide

/-- `NewAckIsAccepted`: an acknowledgment of the slot at `A_BASE`, and one of the last slot that fits the window. -/
theorem witness_new_ack :
    (let s := withBytes oneOut (ackBytes 0)
     let w := window 0 1 0 [0] []
     s.sender = some w ∧ w.base < s.cfg.S ∧ w.valid.length = s.cfg.S ∧ w.acked.length = s.cfg.S ∧
       (packetOperand s).checksum = computeChecksum (packetOperand s) ∧ (packetOperand s).acknum.toInt = ((0 : Nat) : Int) ∧
       ringDist s.cfg 0 w.base < s.cfg.W ∧ flagGet w.valid 0 = true ∧ flagGet w.acked 0 = false) ∧
    (let s := withBytes (senderAt true (window 6 0 6 [6, 7, 8, 9, 10, 11] [])) (ackBytes 11)
     let w := window 6 0 6 [6, 7, 8, 9, 10, 11] []
     s.sender = some w ∧ w.base < s.cfg.S ∧ w.valid.length = s.cfg.S ∧ w.acked.length = s.cfg.S ∧
       (packetOperand s).checksum = computeChecksum (packetOperand s) ∧ (packetOperand s).acknum.toInt = ((11 : Nat) : Int) ∧
       ringDist s.cfg 11 w.base < s.cfg.W ∧ flagGet w.valid 11 = true ∧ flagGet w.acked 11 = false) := by decide

/-- `TimeoutResends`: with and without a packet outstanding. -/
theorem witness_timeout :
    oneOut.sender = some (window 0 1 0 [0] []) ∧
    (senderAt false (window 0 0 0 [] [])).sender = some (window 0 0 0 [] []) := by decide

/-- The slots of `oneOut` beyond the ring hold no flag and no packet, so that its invariants are a finite question. -/
theorem flagGet_flags_of_le (ks : List Nat) {k : Nat} (h : 12 ≤ k) : flagGet (flags ks) k = false := by
  simp [flagGet, flags, List.getD_eq_getElem?_getD, h]

theorem storeRead_oneOut (k : Nat) : storeRead (window 0 1 0 [0] []).pkts k = if k = 0 then some (dataRecord 0) else none := by
  simp [window, storeRead, eq_comm]

/-- `TimeoutSendsStoredPackets`, `AtMostWindowOutstanding`, `AckIsIdempotent`, `StepKeepsTheInvariants`: a state that has the
invariants, with a packet outstanding. -/
theorem witness_inv : oneOut.Inv ∧ oneOut.sender = some (window 0 1 0 [0] []) ∧ 0 < windowCount oneOut.cfg (window 0 1 0 [0] []) := by
  refine ⟨⟨fun w hw => ?_, (fun r hr => by cases hr), (fun h => by cases h), fun _ _ w hw => ?_⟩, rfl, by decide⟩
  case refine_2 => cases hw; decide
  cases hw
  have below : ∀ k < 12, flagGet (window 0 1 0 [0] []).valid k = inRun oneOut.cfg 0 1 k ∧
      flagGet (window 0 1 0 [0] []).acked k = false ∧
      (storeRead (window 0 1 0 [0] []).pkts k).isSome = flagGet (window 0 1 0 [0] []).valid k := by decide
  have acked : ∀ k, flagGet (window 0 1 0 [0] []).acked k = false := fun k =>
    if h : k < 12 then (below k h).2.1 else flagGet_flags_of_le _ (by omega)
  have stored : ∀ k p, storeRead (window 0 1 0 [0] []).pkts k = some p → k = 0 ∧ p = dataRecord 0 := by
    intro k p h
    rw [storeRead_oneOut] at h
    split at h <;> cases h
    exact ⟨‹_›, rfl⟩
  constructor
  case valid_iff =>
    intro k
    by_cases h : k < 12
    · exact (below k h).1
    · rw [show (window 0 1 0 [0] []).valid = flags [0] from rfl, flagGet_flags_of_le _ (by omega)]
      symm; rw [← Bool.not_eq_true, inRun_iff]; exact fun h' => h h'.1
  case acked_valid => intro k h; rw [acked k] at h; cases h
  case pkt_iff =>
    intro k
    by_cases h : k < 12
    · exact (below k h).2.2
    · rw [show (window 0 1 0 [0] []).valid = flags [0] from rfl, flagGet_flags_of_le _ (by omega), storeRead_oneOut,
        if_neg (by omega)]; rfl
  case pkt_seqnum => intro k p h; obtain ⟨rfl, rfl⟩ := stored k p h; decide
  case pkt_acknum => intro k p h; obtain ⟨rfl, rfl⟩ := stored k p h; decide
  case pkt_sealed => intro k p h; obtain ⟨rfl, rfl⟩ := stored k p h; decide
  case pkt_payload => intro k p h; obtain ⟨rfl, rfl⟩ := stored k p h; decide
  all_goals decide

/-- The invariants say nothing of what stands in `IBUF` and of the host's moves, and of the faults only that `T_SPUR` is set. -/
theorem inv_with {s : State} (h : s.Inv) (m : Memory) (moves : List HostInput) (f : BitVec 9)
    (hf : f.getLsbD 8 = false → s.fault.getLsbD 8 = false) :
    ({ s with ibuf := m, inputs := moves, fault := f } : State).Inv :=
  ⟨h.sender, h.receiver, h.stopped, fun h' => h.count_of_running (hf h')⟩

/-- `AckIsIdempotent`: an uncorrupted and a corrupted acknowledgment. -/
theorem witness_ack_twice :
    (withBytes oneOut (ackBytes 0)).Inv ∧ isCorrupted (packetOperand (withBytes oneOut (ackBytes 0))) = false ∧
    (withBytes oneOut (msg 0x30)).Inv ∧ isCorrupted (packetOperand (withBytes oneOut (msg 0x30))) = true ∧
    (∃ t, exec .aOnack (withBytes oneOut (ackBytes 0)) = .next t) ∧ ∃ t, exec .aOnack (withBytes oneOut (msg 0x30)) = .next t :=
  ⟨inv_with witness_inv.1 _ [] 0 id, by decide, inv_with witness_inv.1 _ [] 0 id, by decide,
    have ⟨_, _, _, _, _, h, _⟩ := exec_shape .aOnack (withBytes oneOut (ackBytes 0)); ⟨_, h⟩,
    have ⟨_, _, _, _, _, h, _⟩ := exec_shape .aOnack (withBytes oneOut (msg 0x30)); ⟨_, h⟩⟩

/-- `DoubleStopIsUnreachable`: `FAULT.T_DSTOP` set, in a state that has the invariants, and a step that keeps it and has a response. -/
theorem witness_double_stop :
    ({ oneOut with inputs := [.command 0x33 []], fault := 0x080 } : State).Inv ∧
    ∃ t r, step { oneOut with inputs := [.command 0x33 []], fault := 0x080 } = .next t ∧ t.fault.getLsbD 7 = true ∧
      t.resp = some r :=
  ⟨inv_with witness_inv.1 _ _ _ (fun _ => rfl), _, _, rfl, by decide, rfl⟩

/-- `StepKeepsTheInvariants`: a command executed in a state that has them. -/
theorem witness_step_inv :
    ({ oneOut with inputs := [.command 0x33 []] } : State).Inv ∧
    ∃ t, step { oneOut with inputs := [.command 0x33 []] } = .next t := ⟨inv_with witness_inv.1 _ _ 0 id, _, rfl⟩

/-- `PacketIsDropped`: a corrupted image; `seqnum` -1, `S`, and the first number out of the window. -/
theorem witness_packet_dropped :
    (let p := packetOperand (withBytes .reset (imageBytes [0x3f, 0x42, 0x0f, 0] [0xff, 0xff, 0xff, 0xff] 0x61 [0x93, 0x07, 0, 0]))
     p.checksum ≠ computeChecksum p) ∧
    (let p := packetOperand (withBytes .reset
       (imageBytes [0xff, 0xff, 0xff, 0xff] [0xff, 0xff, 0xff, 0xff] 0x61 [0x92, 0x07, 0, 0]))
     p.checksum = computeChecksum p ∧ p.seqnum.toInt < 0) ∧
    (let p := packetOperand (withBytes .reset (imageBytes [12, 0, 0, 0] [0xff, 0xff, 0xff, 0xff] 0x61 [0x9f, 0x07, 0, 0]))
     p.checksum = computeChecksum p ∧ (Config.ref.S : Int) ≤ p.seqnum.toInt) ∧
    (let p := packetOperand (withBytes .reset (imageBytes [6, 0, 0, 0] [0xff, 0xff, 0xff, 0xff] 0x63 [0xc1, 0x07, 0, 0]))
     p.checksum = computeChecksum p ∧ Config.ref.W ≤ ringDist Config.ref p.seqnum.toInt.toNat 0) := by decide

/-- `InWindowPacketIsDrained`: the packet at `B_BASE`, and the last number inside the window, a first and a second copy. -/
theorem witness_packet_in_window :
    (let s := withBytes (receiverAt (receiverWindow 0 [])) data0Bytes
     let r := receiverWindow 0 []
     s.receiver = some r ∧ r.base < s.cfg.S ∧ r.rcvd.length = s.cfg.S ∧
       (packetOperand s).checksum = computeChecksum (packetOperand s) ∧ (packetOperand s).seqnum.toInt = ((0 : Nat) : Int) ∧
       ringDist s.cfg 0 r.base < s.cfg.W ∧ flagGet r.rcvd 0 = false) ∧
    (let s := withBytes (receiverAt (receiverWindow 7 [0])) data0Bytes
     let r := receiverWindow 7 [0]
     s.receiver = some r ∧ r.base < s.cfg.S ∧ r.rcvd.length = s.cfg.S ∧
       (packetOperand s).checksum = computeChecksum (packetOperand s) ∧ (packetOperand s).seqnum.toInt = ((0 : Nat) : Int) ∧
       ringDist s.cfg 0 r.base + 1 = s.cfg.W ∧ flagGet r.rcvd 0 = true) := by decide

/-- `EveryPacketIsAcknowledgedOnce`, `RdsrReadsTheTable`, `StatusBits`: each entity initialised; slot index `S - 1`. -/
theorem witness_initialised :
    (receiverAt (receiverWindow 3 [5])).receiver = some (receiverWindow 3 [5]) ∧
    oneOut.sender = some (window 0 1 0 [0] []) ∧ State.reset.sender = none ∧ 11 < oneOut.cfg.S := by decide

/-- `RdsrRefusals`: a gap of the table; a slot index `S`; an index where none is taken; an entity that is not initialised, at the last
slot index and at index 0. -/
theorem witness_rdsr_refusals :
    0x04 ∉ [0x00, 0x01, 0x02, 0x03, 0x08, 0x09, 0x0A, 0x0B, 0x0C, 0x10, 0x11, 0x18, 0x19, 0x1A, 0x1B, 0x1C] ∧
    State.reset.cfg.S ≤ 12 ∧ ¬ (0x08 = 0x0C ∨ 0x08 = 0x11) ∧ (1 : Nat) ≠ 0 ∧ 11 < State.reset.cfg.S ∧
    State.reset.aInitd = false ∧ State.reset.bInitd = false := by decide

/-- `RefusedCommandChangesNothing`. -/
theorem witness_refused : ∃ t r, exec (.rinc 12) .reset = .next t ∧ t.resp = some r ∧ r.status = .refused :=
  ⟨_, _, rfl, rfl, rfl⟩

/-- `TimerFaultsOfEachCommand`: a command that flags nothing, and one that flags a timer fault. -/
theorem witness_timer_faults :
    (∃ t r, exec .csum .reset = .next t ∧ t.resp = some r ∧ r.status ≠ .refused ∧ r.fr = 0) ∧
    ∃ t r, exec .aOntimeout (senderAt false (window 0 0 0 [] [])) = .next t ∧ t.resp = some r ∧ r.status ≠ .refused ∧ r.fr = 0x100 :=
  ⟨⟨_, _, rfl, rfl, by decide, rfl⟩, ⟨_, _, rfl, rfl, by decide, by decide⟩⟩

/-- `OnlyResetClearsFaults`: a step that is no reset, from a state with a fault set and both entities initialised. -/
theorem witness_sticky :
    (let s : State := { oneOut with fault := 0x100, receiver := some (receiverWindow 0 []), inputs := [.command 0x33 []] }
     s.fault.getLsbD 8 = true ∧ s.aInitd = true ∧ s.bInitd = true) ∧
    (∀ rest, ([.command 0x33 []] : List HostInput) ≠ .reset :: rest) := ⟨by decide, by simp⟩

/-- `ReadOnlyCommandsWriteNothing`: a command with a response that is not `REFUSED`. -/
theorem witness_read_only :
    isReadOnly (.rdsr 0 0) = true ∧ ∃ t r, exec (.rdsr 0 0) .reset = .next t ∧ t.resp = some r ∧ r.status ≠ .refused :=
  ⟨rfl, _, _, rfl, rfl, by decide⟩

/-- `EventsOfEachCommand`: a command with an event. -/
theorem witness_event : ∃ t, exec .aOntimeout oneOut = .next t ∧ .tStart .A 16 ∈ t.events := ⟨_, rfl, by decide⟩

/-- `EntitiesShareNothing`, `EntitiesCommute`. -/
theorem witness_entities :
    isSenderCommand .aOntimeout = true ∧ isReceiverCommand .bOnpacket = true ∧
    (∃ t, exec .aOntimeout oneOut = .next t) ∧ ∃ t, exec .bInit oneOut = .next t := ⟨rfl, rfl, ⟨_, rfl⟩, ⟨_, rfl⟩⟩

/-- `StoresReadWhatWasWritten`: another slot. -/
theorem witness_other_slot : (1 : Nat) ≠ 0 := by decide

/-- `StepKeepsMemoryCanonical`: a state with a packet stored, an image and a command to come. -/
theorem witness_memory_wf :
    ({ withBytes oneOut (ackBytes 0) with inputs := [.command 0x32 (Memory.ofBytes (ackBytes 0))] } : State).MemoryWf := by
  refine ⟨Memory_wf_ofBytes _, fun m hm => ?_, fun w hw => ?_, fun r hr => by cases hr⟩
  · rw [List.mem_singleton.1 hm]; exact Memory_wf_ofBytes _
  · cases hw; exact List.pairwise_singleton _ _

end Sys2Proof.Tests
end

section
/-!
PROOFS. The scope of an instance: its configuration stays and is read out as it is, and its stores read what was written.
-/

open Sys2Proof Sys2Proof.Machine

namespace Sys2Proof.Machine

/-! ### What a command leaves unchanged -/

/-- A command leaves the configuration and the host's moves to come as they are. -/
theorem exec_keeps_cfg_and_inputs {i : Instr} {s t : State} (h : exec i s = .next t) :
    t.cfg = s.cfg ∧ t.inputs = s.inputs := by
  obtain ⟨u, st, fr, v, evs, he, hcfg, -, hinputs, -, -⟩ := exec_shape i s
  cases he.symm.trans h
  exact ⟨hcfg, hinputs⟩

/-! ### The configuration words -/

/-- `SEQW` is the binary logarithm of `S`, rounded up (R7). The search below 13 finds it because `S ≤ 2 ^ 12`. -/
theorem seqWidth_eq_clog (c : Config) : seqWidth c = Nat.clog 2 c.S := by
  have hle : Nat.clog 2 c.S ≤ 12 := Nat.clog_le_of_le_pow c.S_le
  have hfind : (List.range 13).find? (fun k => decide (c.S ≤ 2 ^ k)) = some (Nat.clog 2 c.S) := by
    refine List.find?_range_eq_some.2 ⟨?_, List.mem_range.2 (by omega), fun k hk => ?_⟩
    · simpa using Nat.le_pow_clog Nat.one_lt_two c.S
    · simpa using Nat.pow_lt_of_lt_clog hk
  rw [seqWidth, hfind, Option.getD_some]

theorem seqWidth_le (c : Config) : seqWidth c ≤ 12 :=
  seqWidth_eq_clog c ▸ Nat.clog_le_of_le_pow c.S_le

/-- Every sequence number fits in `SEQW` bits. -/
theorem S_le_two_pow_seqWidth (c : Config) : c.S ≤ 2 ^ seqWidth c :=
  seqWidth_eq_clog c ▸ Nat.le_pow_clog Nat.one_lt_two c.S

/-- No smaller width than `SEQW` holds every sequence number: half of `2 ^ SEQW` is below `S`. -/
theorem two_pow_seqWidth_lt (c : Config) : 2 ^ seqWidth c < 2 * c.S := by
  have hS : 1 < c.S := lt_of_le_of_lt c.one_le_W (Config_W_lt_S c)
  have hpos : seqWidth c ≠ 0 := seqWidth_eq_clog c ▸ (Nat.clog_pos Nat.one_lt_two hS).ne'
  have hpred : 2 ^ (seqWidth c - 1) < c.S := seqWidth_eq_clog c ▸ Nat.pow_pred_clog_lt_self Nat.one_lt_two hS
  rw [← mul_pow_sub_one hpos 2]
  omega

/-- `CFG0` as a number: its two 16-bit fields do not overlap (R32). -/
theorem cfg0Word_toNat (c : Config) : (cfg0Word c).toNat = c.S * 2 ^ 16 + c.W := by
  have hS := c.S_le
  have hW := Config_W_lt_S c
  rw [cfg0Word, BitVec.toNat_append, ← Nat.shiftLeft_add_eq_or_of_lt (BitVec.isLt _), Nat.shiftLeft_eq,
    BitVec.toNat_ofNat, BitVec.toNat_ofNat]
  omega

/-- `CFG1` as a number: its fields do not overlap and nothing stands above `SEQW` (R32). -/
theorem cfg1Word_toNat (c : Config) : (cfg1Word c).toNat = seqWidth c * 2 ^ 16 + c.P := by
  have hP := c.P_le
  have hQ := seqWidth_le c
  rw [cfg1Word, BitVec.toNat_append, ← Nat.shiftLeft_add_eq_or_of_lt (BitVec.isLt _), Nat.shiftLeft_eq,
    BitVec.toNat_append, BitVec.toNat_zero, Nat.zero_shiftLeft, Nat.zero_or, BitVec.toNat_ofNat, BitVec.toNat_ofNat]
  omega

theorem cfg1Word_seqw (c : Config) : ((cfg1Word c).extractLsb' 16 4).toNat = seqWidth c := by
  have hP := c.P_le
  have hQ := seqWidth_le c
  rw [BitVec.extractLsb'_toNat, cfg1Word_toNat, Nat.shiftRight_eq_div_pow]
  omega

theorem cfg1Word_above_seqw (c : Config) : (cfg1Word c).extractLsb' 20 12 = 0#12 := by
  have hP := c.P_le
  have hQ := seqWidth_le c
  apply BitVec.eq_of_toNat_eq
  rw [BitVec.extractLsb'_toNat, cfg1Word_toNat, Nat.shiftRight_eq_div_pow, BitVec.toNat_zero]
  omega

end Sys2Proof.Machine

/-- Settles O11: each of the four things a step can do takes at most the first move and leaves the configuration. -/
theorem stepKeepsTheConfiguration : Obligations.StepKeepsTheConfiguration := by
  intro s t h
  rcases step_cases s with ⟨hin, he⟩ | ⟨rest, hin, he⟩ | ⟨cmd, image, rest, reason, hin, -, he⟩ |
    ⟨cmd, image, rest, i, hin, -, he⟩
  case inr.inr.inr =>
    have hkeep := exec_keeps_cfg_and_inputs (he.symm.trans h)
    simpa [hin] using hkeep
  all_goals
    cases he.symm.trans h
    simp [hin]

/-- Settles O44: the fields of the two words as numbers, and `SEQW` as the rounded-up logarithm. -/
theorem configurationWords : Obligations.ConfigurationWords := by
  intro c
  have hW := Config_W_lt_S c
  have hS := c.S_le
  have hP := c.P_le
  rw [cfg1Word_seqw]
  refine ⟨?_, ?_, ?_, cfg1Word_above_seqw c, S_le_two_pow_seqWidth c, two_pow_seqWidth_lt c⟩
  · rw [BitVec.extractLsb'_toNat, cfg0Word_toNat, Nat.shiftRight_eq_div_pow]
    omega
  · rw [BitVec.extractLsb'_toNat, cfg0Word_toNat, Nat.shiftRight_eq_div_pow]
    omega
  · rw [BitVec.extractLsb'_toNat, cfg1Word_toNat, Nat.shiftRight_eq_div_pow]
    omega

/-- Settles O55: the read-after-write and read-after-clear laws of the keyed stores, at the same key and at another. -/
theorem storesReadWhatWasWritten : Obligations.StoresReadWhatWasWritten := by
  refine ⟨fun st k p => ⟨?_, ?_, fun j hj => ⟨?_, ?_⟩⟩, fun m a b => ⟨?_, fun a' ha => ?_⟩⟩
  · rw [storeRead_slotWrite, if_pos rfl]
  · rw [storeRead_slotClear, if_pos rfl]
  · rw [storeRead_slotWrite, if_neg hj]
  · rw [storeRead_slotClear, if_neg hj]
  · rw [Memory_read_write, if_pos rfl]
  · rw [Memory_read_write, if_neg ha]
end

section
/-!
PROOFS. The invariants of R28 and R29: each operation on a window state keeps them, so every command does, and so does
every step.
-/

open Sys2Proof Sys2Proof.Machine

namespace Sys2Proof.Machine

/-! ### The window's count -/

theorem windowCount_pos_iff {c : Config} {w : Sender} (hb : w.base < c.S) (hn : w.next < c.S) :
    0 < windowCount c w ↔ w.base ≠ w.next := by
  rw [windowCount, ringDist_eq hn hb]
  split <;> omega

/-- `A_NEXT` is the slot just past the window. -/
theorem ringOffset_windowCount {c : Config} {w : Sender} (hb : w.base < c.S) (hn : w.next < c.S) :
    ringOffset c w.base (windowCount c w) = w.next := ringOffset_ringDist hn hb

/-- While `x` is in the window of `b`, the next number is one step further from `b`. -/
theorem ringDist_ringInc {c : Config} {x b : Nat} (hx : x < c.S) (hb : b < c.S) (h : ringDist c x b < c.W) :
    ringDist c (ringInc c x) b = ringDist c x b + 1 := by
  have hW := Config_W_lt_S c
  rw [ringDist_eq hx hb] at h ⊢
  rw [ringDist_eq (ringInc_lt c x) hb, ringInc_eq hx]
  split_ifs at h ⊢ <;> omega

/-- Seen from a base that is `n` slots further, a slot not nearer than that is `n` steps nearer. -/
theorem ringDist_ringOffset_base {c : Config} {x b n : Nat} (hx : x < c.S) (hb : b < c.S) (h : n ≤ ringDist c x b) :
    ringDist c x (ringOffset c b n) = ringDist c x b - n := by
  have hn : n < c.S := lt_of_le_of_lt h (ringDist_lt c x b)
  rw [ringDist_eq hx hb] at h ⊢
  rw [ringDist_eq hx (ringOffset_lt c b n), ringOffset_eq hb hn]
  split_ifs at h ⊢ <;> omega

/-- A run of `n + 1` slots is the run of `n` slots and the slot past it. -/
theorem inRun_succ_last {c : Config} {b n : Nat} (hb : b < c.S) (hn : n < c.S) (k : Nat) :
    inRun c b (n + 1) k = (decide (k = ringOffset c b n) || inRun c b n k) := by
  have hoff : ∀ k < c.S, k = ringOffset c b n ↔ ringDist c k b = n := fun k hk =>
    ⟨fun h => h ▸ ringDist_ringOffset hb hn, fun h => h ▸ (ringOffset_ringDist hk hb).symm⟩
  rw [Bool.eq_iff_iff, Bool.or_eq_true, inRun_iff, inRun_iff, decide_eq_true_iff]
  by_cases hk : k < c.S
  · rw [hoff k hk]; omega
  · have := ringOffset_lt c b n; omega

/-- Taking the first `n` slots off a run of `m` leaves the run of `m - n` slots from the advanced base. -/
theorem inRun_sub {c : Config} {b m n : Nat} (hb : b < c.S) (hm : m < c.S) (hn : n ≤ m) (k : Nat) :
    inRun c (ringOffset c b n) (m - n) k = (inRun c b m k && !inRun c b n k) := by
  rw [Bool.eq_iff_iff, Bool.and_eq_true, Bool.not_eq_true', ← Bool.not_eq_true, inRun_iff, inRun_iff, inRun_iff]
  by_cases hk : k < c.S
  · rw [ringDist_eq hk hb, ringDist_eq hk (ringOffset_lt c b n), ringOffset_eq hb (by omega)]
    split_ifs <;> omega
  · simp [hk]

/-! ### The packets that the entities store -/

/-- A number of a few digits is not changed by `wrap32` (R11). -/
theorem s32_wrap32_natCast {n : Nat} (h : n < 4096) : s32 (wrap32 (n : Int)) = n := by
  rw [s32, wrap32, BitVec.toInt_ofInt, Int.bmod_eq_of_le (by omega) (by omega)]

theorem length_packetOperand_payload (s : State) : (packetOperand s).payload.length = s.cfg.P := by
  simp [packetOperand, pktUnpack]

theorem length_messageOperand (s : State) : (messageOperand s).length = s.cfg.P := by
  simp [messageOperand]

/-- What holds of a packet written and of every packet stored before holds of every packet stored after. -/
theorem forall_storeRead_slotWrite {st : SlotStore} {k : Nat} {p : Packet} {Good : Nat → Packet → Prop} (hp : Good k p)
    (hold : ∀ j q, storeRead st j = some q → Good j q) : ∀ j q, storeRead (slotWrite st k p) j = some q → Good j q := by
  intro j q hq
  rw [storeRead_slotWrite] at hq
  split at hq
  · subst_vars; cases hq; exact hp
  · exact hold j q hq

/-! ### Entity A's window state (R28) -/

theorem SenderInv.senderInit (c : Config) (running : Bool) : SenderInv c running (senderInit c) := by
  have hS := Config_S_pos c
  have hcount : windowCount c (Machine.senderInit c) = 0 := by simp [windowCount, ringDist_eq hS hS]
  constructor <;> simp [hcount, hS]

/-- A timeout touches neither the window nor the store: any value of `A_TSEQ` that is a sequence number will do. -/
theorem SenderInv.withTseq {c : Config} {running : Bool} {w : Sender} (h : SenderInv c running w) {tseq : Nat}
    (ht : tseq < c.S) : SenderInv c true { w with tseq := tseq } :=
  { h with tseq_lt := ht, running_of_count := fun _ => rfl }

/-- An accepted message takes the slot at `A_NEXT`, the one just past the window (R116). -/
theorem SenderInv.acceptMessage {c : Config} {running : Bool} {w : Sender} (h : SenderInv c running w)
    (hcount : windowCount c w < c.W) {p : Packet} (hseq : s32 p.seqnum = (w.next : Int))
    (hack : s32 p.acknum = Config.notInUse) (hsealed : isCorrupted p = false) (hlen : p.payload.length = c.P)
    {tseq : Nat} (ht : tseq < c.S) :
    windowCount c (acceptMessage c w p tseq) = windowCount c w + 1 ∧ SenderInv c true (acceptMessage c w p tseq) := by
  have hsucc : windowCount c (Machine.acceptMessage c w p tseq) = windowCount c w + 1 :=
    ringDist_ringInc h.next_lt h.base_lt hcount
  have hvalid : ∀ k, flagGet (Machine.acceptMessage c w p tseq).valid k = (decide (k = w.next) || flagGet w.valid k) :=
    fun k => by
      rw [acceptMessage_valid, flagGet_flagSet _ _ (h.valid_length ▸ h.next_lt)]
      by_cases hk : k = w.next <;> simp [hk]
  have hacked : ∀ k, flagGet (Machine.acceptMessage c w p tseq).acked k = (!decide (k = w.next) && flagGet w.acked k) :=
    fun k => by
      rw [acceptMessage_acked, flagGet_flagSet_false]
      by_cases hk : k = w.next <;> simp [hk]
  refine ⟨hsucc, ?_⟩
  constructor
  case base_lt => exact h.base_lt
  case next_lt => exact ringInc_lt c _
  case tseq_lt => exact ht
  case valid_length => simpa using h.valid_length
  case acked_length => simpa using h.acked_length
  case count_le => omega
  case valid_iff =>
    intro k
    rw [hsucc, hvalid, h.valid_iff, acceptMessage_base,
      inRun_succ_last h.base_lt (hcount.trans (Config_W_lt_S c)), ringOffset_windowCount h.base_lt h.next_lt]
  case acked_valid =>
    intro k hk
    rw [hacked, Bool.and_eq_true] at hk
    rw [hvalid, h.acked_valid k hk.2, Bool.or_true]
  case base_unacked =>
    intro _
    rw [hacked, acceptMessage_base]
    by_cases hempty : w.base = w.next
    · simp [hempty]
    · rw [h.base_unacked ((windowCount_pos_iff h.base_lt h.next_lt).2 hempty), Bool.and_false]
  case pkt_iff =>
    intro k
    rw [hvalid, acceptMessage_pkts, storeRead_slotWrite]
    by_cases hk : k = w.next
    · simp [hk]
    · simp [hk, h.pkt_iff]
  case pkt_seqnum => exact forall_storeRead_slotWrite hseq h.pkt_seqnum
  case pkt_acknum => exact forall_storeRead_slotWrite (Good := fun _ q => s32 q.acknum = _) hack h.pkt_acknum
  case pkt_sealed => exact forall_storeRead_slotWrite (Good := fun _ q => isCorrupted q = _) hsealed h.pkt_sealed
  case pkt_payload => exact forall_storeRead_slotWrite (Good := fun _ q => q.payload.length = _) hlen h.pkt_payload
  case running_of_count => exact fun _ => rfl

theorem ackSlide_tseq {c : Config} {w : Sender} (hb : w.base < c.S) (k : Nat) : (ackSlide c w k).1.tseq = w.tseq := by
  obtain ⟨-, -, -, htseq, -⟩ := slide_spec c c.S { w with acked := flagSet w.acked k true } hb le_rfl
  exact htseq

theorem ackSlide_base_lt {c : Config} {w : Sender} (hb : w.base < c.S) (k : Nat) : (ackSlide c w k).1.base < c.S := by
  obtain ⟨-, hbase, -⟩ := slide_spec c c.S { w with acked := flagSet w.acked k true } hb le_rfl
  exact (congrArg (· < c.S) hbase).mpr (ringOffset_lt c _ _)

/-- The slide after a new acknowledgment retires `n` slots of the window, and leaves the others (R119). -/
theorem SenderInv.ackSlide {c : Config} {running : Bool} {w : Sender} (h : SenderInv c running w) {k : Nat}
    (hk : flagGet w.valid k = true) {tseq : Nat} (ht : tseq < c.S) :
    SenderInv c (decide ((ackSlide c w k).1.base ≠ (ackSlide c w k).1.next)) { (ackSlide c w k).1 with tseq := tseq } := by
  unfold Machine.ackSlide
  have hkS : k < w.acked.length := by
    rw [h.valid_iff, inRun_iff] at hk
    exact h.acked_length ▸ hk.1
  obtain ⟨-, hbase, hnext, -, hvlen, halen, hvalid, hacked, hpkts, hretired, -, -⟩ :=
    slide_spec c c.S { w with acked := flagSet w.acked k true } h.base_lt le_rfl
  have hexit := slide_exit c { w with acked := flagSet w.acked k true } h.base_lt
  generalize slide c c.S { w with acked := flagSet w.acked k true } = r at *
  obtain ⟨v, n⟩ := r
  dsimp only at *
  have hcountS : windowCount c w < c.S := ringDist_lt c _ _
  have hbaseS : v.base < c.S := hbase ▸ ringOffset_lt c _ _
  -- The slot past the window is not valid, so the slide stops before it.
  have hn : n ≤ windowCount c w := by
    by_contra hgt
    have hlast := hretired w.next (inRun_iff.2 ⟨h.next_lt, by rw [← windowCount]; omega⟩)
    rw [isRetirable, Bool.and_eq_true, h.valid_iff, inRun_iff] at hlast
    exact absurd hlast.1.2 (lt_irrefl _)
  have hcount : windowCount c { v with tseq := tseq } = windowCount c w - n := by
    rw [windowCount, hnext, hbase]
    exact ringDist_ringOffset_base h.next_lt h.base_lt hn
  have hstored : ∀ j q, storeRead v.pkts j = some q → storeRead w.pkts j = some q := fun j q hq => by
    rw [hpkts] at hq
    split at hq
    · cases hq
    · exact hq
  have hvalid_iff : ∀ j, flagGet v.valid j = inRun c v.base (windowCount c w - n) j := fun j => by
    rw [hvalid, h.valid_iff, hbase, inRun_sub h.base_lt hcountS hn]
  constructor
  case base_lt => exact hbaseS
  case next_lt => exact hnext ▸ h.next_lt
  case tseq_lt => exact ht
  case valid_length => exact hvlen.trans h.valid_length
  case acked_length => simpa [h.acked_length] using halen
  case count_le => have := h.count_le; omega
  case valid_iff => rw [hcount]; exact hvalid_iff
  case acked_valid =>
    intro j hj
    rw [hacked, flagGet_flagSet _ _ hkS, Bool.and_eq_true] at hj
    have hwj : flagGet w.valid j = true := by
      by_cases hjk : j = k
      · exact hjk ▸ hk
      · exact h.acked_valid j (by simpa [hjk] using hj.1)
    rw [hvalid, hwj, hj.2, Bool.and_true]
  case base_unacked =>
    intro hpos
    have hvb : flagGet v.valid v.base = true := by
      rw [hvalid_iff, inRun_iff]
      exact ⟨hbaseS, by rw [ringDist_eq hbaseS hbaseS]; simp; omega⟩
    simpa [isRetirable, hvb] using hexit
  case pkt_iff =>
    intro j
    rw [hpkts, hvalid, ← h.pkt_iff]
    cases inRun c w.base n j <;> simp
  case pkt_seqnum => exact fun j q hq => h.pkt_seqnum j q (hstored j q hq)
  case pkt_acknum => exact fun j q hq => h.pkt_acknum j q (hstored j q hq)
  case pkt_sealed => exact fun j q hq => h.pkt_sealed j q (hstored j q hq)
  case pkt_payload => exact fun j q hq => h.pkt_payload j q (hstored j q hq)
  case running_of_count =>
    intro hpos
    exact decide_eq_true ((windowCount_pos_iff (w := { v with tseq := tseq }) hbaseS (hnext ▸ h.next_lt)).1 hpos)

/-! ### Entity B's window state (R29) -/

theorem ReceiverInv.receiverInit (c : Config) : ReceiverInv c (receiverInit c) := by
  constructor <;> simp [Config_S_pos c]

/-- R29 without "never at `B_BASE` itself": what holds between the storing of a packet and the drain (R133). -/
structure FillingInv (c : Config) (r : Receiver) : Prop where
  base_lt : r.base < c.S
  rcvd_length : r.rcvd.length = c.S
  rcvd_window : ∀ k, flagGet r.rcvd k = true → k < c.S ∧ ringDist c k r.base < c.W
  pkt_iff : ∀ k, (storeRead r.pkts k).isSome = flagGet r.rcvd k
  pkt_seqnum : ∀ k p, storeRead r.pkts k = some p → s32 p.seqnum = (k : Int)
  pkt_sealed : ∀ k p, storeRead r.pkts k = some p → isCorrupted p = false
  pkt_payload : ∀ k p, storeRead r.pkts k = some p → p.payload.length = c.P

theorem ReceiverInv.filling {c : Config} {r : Receiver} (h : ReceiverInv c r) : FillingInv c r where
  base_lt := h.base_lt
  rcvd_length := h.rcvd_length
  rcvd_window := fun k hk => have ⟨hkS, _, hkW⟩ := h.rcvd_window k hk; ⟨hkS, hkW⟩
  pkt_iff := h.pkt_iff
  pkt_seqnum := h.pkt_seqnum
  pkt_sealed := h.pkt_sealed
  pkt_payload := h.pkt_payload

/-- An in-window packet may be stored in its slot, also in the one at `B_BASE`. -/
theorem FillingInv.bufferPacket {c : Config} {r : Receiver} (h : FillingInv c r) {q : Nat} {p : Packet} (hq : q < c.S)
    (hwin : ringDist c q r.base < c.W) (hseq : s32 p.seqnum = (q : Int)) (hsealed : isCorrupted p = false)
    (hlen : p.payload.length = c.P) : FillingInv c (bufferPacket r q p) := by
  have hrcvd : ∀ k, flagGet (Machine.bufferPacket r q p).rcvd k = if k = q then true else flagGet r.rcvd k := fun k =>
    flagGet_flagSet _ _ (h.rcvd_length ▸ hq)
  have hread : ∀ k, storeRead (Machine.bufferPacket r q p).pkts k = if k = q then some p else storeRead r.pkts k :=
    storeRead_slotWrite _ _ _
  constructor
  case base_lt => exact h.base_lt
  case rcvd_length => simpa using h.rcvd_length
  case rcvd_window =>
    intro k hk
    rw [hrcvd] at hk
    split at hk
    · subst_vars; exact ⟨hq, hwin⟩
    · exact h.rcvd_window k hk
  case pkt_iff =>
    intro k
    rw [hrcvd, hread, ← h.pkt_iff]
    split <;> rfl
  case pkt_seqnum => exact forall_storeRead_slotWrite hseq h.pkt_seqnum
  case pkt_sealed => exact forall_storeRead_slotWrite (Good := fun _ x => isCorrupted x = _) hsealed h.pkt_sealed
  case pkt_payload => exact forall_storeRead_slotWrite (Good := fun _ x => x.payload.length = _) hlen h.pkt_payload

/-- The drain ends at a slot that is not received, so R29 holds again of the advanced window. -/
theorem FillingInv.drain {s : State} {r : Receiver} (h : FillingInv s.cfg r) :
    ReceiverInv s.cfg (drain s s.cfg.S r).1 := by
  obtain ⟨-, hbase, hlen, hrcvd, hpkts, -, -, -, -⟩ := drain_spec s s.cfg.S r h.base_lt le_rfl
  have hexit := drain_exit s r h.base_lt
  generalize (Machine.drain s s.cfg.S r).1 = v at *
  generalize (Machine.drain s s.cfg.S r).2.length = d at *
  have hbaseS : v.base < s.cfg.S := hbase ▸ ringOffset_lt _ _ _
  have hstored : ∀ k p, storeRead v.pkts k = some p → storeRead r.pkts k = some p := fun k p hp => by
    rw [hpkts] at hp
    split at hp
    · cases hp
    · exact hp
  constructor
  case base_lt => exact hbaseS
  case rcvd_length => exact hlen.trans h.rcvd_length
  case rcvd_window =>
    intro k hk
    have hne : k ≠ v.base := fun he => by rw [he, hexit] at hk; cases hk
    rw [hrcvd, Bool.and_eq_true, Bool.not_eq_true', ← Bool.not_eq_true, inRun_iff] at hk
    obtain ⟨hkS, hkW⟩ := h.rcvd_window k hk.1
    have hpassed : d ≤ ringDist s.cfg k r.base := by
      by_contra hlt
      exact hk.2 ⟨hkS, by omega⟩
    have hdist : ringDist s.cfg k v.base = ringDist s.cfg k r.base - d :=
      hbase ▸ ringDist_ringOffset_base hkS h.base_lt hpassed
    have hpos : ringDist s.cfg k v.base ≠ 0 := fun h0 => hne (by
      rw [← ringOffset_ringDist hkS hbaseS, h0, ringOffset_zero hbaseS])
    omega
  case pkt_iff =>
    intro k
    rw [hpkts, hrcvd, ← h.pkt_iff]
    cases inRun s.cfg r.base d k <;> simp
  case pkt_seqnum => exact fun k p hp => h.pkt_seqnum k p (hstored k p hp)
  case pkt_sealed => exact fun k p hp => h.pkt_sealed k p (hstored k p hp)
  case pkt_payload => exact fun k p hp => h.pkt_payload k p (hstored k p hp)

/-! ### The whole state -/

/-- The invariants speak of the configuration, the two windows and the timer flag, and of `FAULT` only through `T_SPUR`. -/
theorem State.Inv.congr {s t : State} (h : s.Inv) (hcfg : t.cfg = s.cfg) (hsender : t.sender = s.sender)
    (hrun : t.aTrun = s.aTrun) (hreceiver : t.receiver = s.receiver)
    (hfault : t.fault.getLsbD 8 = false → s.fault.getLsbD 8 = false) : t.Inv where
  sender := by rw [hcfg, hsender, hrun]; exact h.sender
  receiver := by rw [hcfg, hreceiver]; exact h.receiver
  stopped := by rw [hsender, hrun]; exact h.stopped
  count_of_running := fun hf => by rw [hcfg, hsender, hrun]; exact h.count_of_running (hfault hf)

/-- A new window state of entity A. -/
theorem State.Inv.setSender {s t : State} (h : s.Inv) {w : Sender} (hcfg : t.cfg = s.cfg) (hsender : t.sender = some w)
    (hreceiver : t.receiver = s.receiver) (hw : SenderInv s.cfg t.aTrun w)
    (hrun : t.fault.getLsbD 8 = false → t.aTrun = true → 0 < windowCount s.cfg w) : t.Inv where
  sender := by rw [hcfg, hsender]; rintro _ ⟨⟩; exact hw
  receiver := by rw [hcfg, hreceiver]; exact h.receiver
  stopped := by simp [hsender]
  count_of_running := by rw [hcfg, hsender]; rintro hf hr _ ⟨⟩; exact hrun hf hr

/-- A new window state of entity B. -/
theorem State.Inv.setReceiver {s t : State} (h : s.Inv) {r : Receiver} (hcfg : t.cfg = s.cfg)
    (hsender : t.sender = s.sender) (hrun : t.aTrun = s.aTrun) (hreceiver : t.receiver = some r)
    (hfault : t.fault.getLsbD 8 = false → s.fault.getLsbD 8 = false) (hr : ReceiverInv s.cfg r) : t.Inv where
  sender := by rw [hcfg, hsender, hrun]; exact h.sender
  receiver := by rw [hcfg, hreceiver]; rintro _ ⟨⟩; exact hr
  stopped := by rw [hsender, hrun]; exact h.stopped
  count_of_running := fun hf => by rw [hcfg, hsender, hrun]; exact h.count_of_running (hfault hf)

/-- A response adds faults and clears none. -/
theorem respond_fault_getLsbD_false {s : State} {st : Status} {fr : BitVec 9} {v : Word} {evs : List Event} {k : Nat}
    (h : (respond s st fr v evs).fault.getLsbD k = false) : s.fault.getLsbD k = false := by
  rw [respond_fault, BitVec.getLsbD_or, Bool.or_eq_false_iff] at h
  exact h.1

/-- No response breaks the invariants. -/
theorem State.Inv.respond {s : State} (h : s.Inv) (st : Status) (fr : BitVec 9) (v : Word) (evs : List Event) :
    (respond s st fr v evs).Inv :=
  h.congr rfl rfl rfl rfl respond_fault_getLsbD_false

theorem State.Inv.takeCommand {s : State} (h : s.Inv) (image : Memory) (rest : List HostInput) :
    (takeCommand s image rest).Inv :=
  h.congr rfl rfl rfl rfl id

theorem State.Inv.resetOf (c : Config) : (State.resetOf c).Inv := by
  constructor <;> simp

/-! ### The commands -/

/-- A read-only command writes nothing but its response (R57). -/
theorem exec_readOnly {i : Instr} (hi : isReadOnly i = true) (s : State) :
    ∃ st fr v, exec i s = .next (respond s st fr v []) := by
  have ring : ∀ j, (exec j s = raiseFault .badarg s ∨ ∃ v, exec j s = .next (respond s .ok 0 v [])) →
      ∃ st fr v, exec j s = .next (respond s st fr v []) := by
    rintro j (h | ⟨v, h⟩)
    · exact ⟨_, _, _, h⟩
    · exact ⟨_, _, _, h⟩
  cases i with
  | rdist x y => exact ring _ (ring_cases s (.inl ⟨_, _, rfl⟩))
  | rinc x => exact ring _ (ring_cases s (.inr (.inl ⟨_, rfl⟩)))
  | rdec x => exact ring _ (ring_cases s (.inr (.inr (.inl ⟨_, rfl⟩))))
  | rinwin x base => exact ring _ (ring_cases s (.inr (.inr (.inr ⟨_, _, rfl⟩))))
  | csum | chk | bOutput | bTimerint => exact ⟨_, _, _, rfl⟩
  | rdsr n i =>
    rcases execRdsr_cases n i s with ⟨f, -, h⟩ | ⟨v, h⟩
    · exact ⟨_, _, _, h⟩
    · exact ⟨_, _, _, h⟩
  | aInit | aOutput | aOnack | aOntimeout | bInit | bOnpacket => simp [isReadOnly] at hi

theorem eq_respond_of_readOnly {i : Instr} {s t : State} (he : exec i s = .next t) (hi : isReadOnly i = true) :
    ∃ st fr v, t = respond s st fr v [] := by
  obtain ⟨st, fr, v, hx⟩ := exec_readOnly hi s
  cases hx.symm.trans he
  exact ⟨st, fr, v, rfl⟩

theorem execAInit_keeps_inv {s t : State} (h : s.Inv) (he : execAInit s = .next t) : t.Inv := by
  rcases execAInit_cases s with ⟨_, _, hx⟩ | ⟨hnone, hx⟩ <;> cases hx.symm.trans he
  · exact h.respond _ _ _ _
  · refine h.setSender rfl rfl rfl (SenderInv.senderInit _ _) fun _ hrun => ?_
    cases (h.stopped hnone).symm.trans hrun

theorem execAOutput_keeps_inv {s t : State} (h : s.Inv) (he : execAOutput s = .next t) : t.Inv := by
  rcases execAOutput_cases s with ⟨_, hx⟩ | ⟨w, hw, hcount, hx⟩ | ⟨w, _, _, hx⟩ <;> cases hx.symm.trans he
  · exact h.respond _ _ _ _
  · have hinv := h.sender w hw
    have hrun : (outputTimer s w).running = true := by
      rw [outputTimer_running]
      split
      · rfl
      · exact hinv.running_of_count ((windowCount_pos_iff hinv.base_lt hinv.next_lt).2 ‹_›)
    have htseq : (outputTimer s w).tseq < s.cfg.S := by
      rw [outputTimer_tseq]
      split
      · exact hinv.base_lt
      · exact hinv.tseq_lt
    have hnext : w.next < 4096 := hinv.next_lt.trans_le s.cfg.S_le
    obtain ⟨hsucc, hinv'⟩ := hinv.acceptMessage hcount (p := dataPacket s w) (s32_wrap32_natCast hnext) rfl
      (isCorrupted_makePacket _ _ _) (length_messageOperand s) htseq
    exact h.setSender rfl rfl rfl (by rw [respond_aTrun, hrun]; exact hinv') fun _ _ => by omega
  · exact h.congr rfl rfl rfl rfl respond_fault_getLsbD_false

theorem execAOnack_keeps_inv {s t : State} (h : s.Inv) (he : execAOnack s = .next t) : t.Inv := by
  rcases execAOnack_cases s with ⟨_, hx⟩ | ⟨_, _, _, hx⟩ | ⟨_, _, _, _, hx⟩ | ⟨_, _, _, _, _, _, _, _, hx⟩ |
    ⟨w, k, hw, _, _, _, hvalid, _, hx⟩ <;> cases hx.symm.trans he
  · exact h.respond _ _ _ _
  · exact h.respond _ _ _ _
  · exact h.congr rfl rfl rfl rfl respond_fault_getLsbD_false
  · exact h.congr rfl rfl rfl rfl respond_fault_getLsbD_false
  · have hbase := (h.sender w hw).base_lt
    have htseq : (ackTimer s.cfg s.aTrun (ackSlide s.cfg w k).1).tseq < s.cfg.S := by
      rw [ackTimer_tseq]
      split
      · exact ackSlide_tseq hbase k ▸ (h.sender w hw).tseq_lt
      · exact ackSlide_base_lt hbase k
    have hinv := (h.sender w hw).ackSlide hvalid htseq
    refine h.setSender rfl rfl rfl (by rw [respond_aTrun, ackTimer_running]; exact hinv) fun _ hrun => ?_
    rw [respond_aTrun, ackTimer_running, decide_eq_true_iff] at hrun
    exact (windowCount_pos_iff hinv.base_lt hinv.next_lt).2 hrun

theorem execAOntimeout_keeps_inv {s t : State} (h : s.Inv) (he : execAOntimeout s = .next t) : t.Inv := by
  rcases execAOntimeout_cases s with ⟨_, hx⟩ | ⟨w, hw, hx⟩ <;> cases hx.symm.trans he
  · exact h.respond _ _ _ _
  · refine h.setSender rfl rfl rfl ((h.sender w hw).withTseq (h.sender w hw).base_lt) fun hf _ => ?_
    have hspur := respond_fault_getLsbD_false hf
    -- A timeout that leaves `T_SPUR` clear found a running timer.
    have hrun : s.aTrun = true := by
      by_contra hstopped
      simp [hstopped, faultMask, faultBit] at hf
    exact h.count_of_running hspur hrun w hw

theorem execBInit_keeps_inv {s t : State} (h : s.Inv) (he : execBInit s = .next t) : t.Inv := by
  rcases execBInit_cases s with ⟨_, _, hx⟩ | ⟨_, hx⟩ <;> cases hx.symm.trans he
  · exact h.respond _ _ _ _
  · exact h.setReceiver rfl rfl rfl rfl respond_fault_getLsbD_false (ReceiverInv.receiverInit _)

/-- The end of the window branch of `B_ONPACKET` establishes R29 again. -/
theorem State.Inv.drained {s : State} (h : s.Inv) {r : Receiver} (hr : FillingInv s.cfg r) (st : Status) :
    (drained s r st).Inv :=
  h.setReceiver rfl rfl rfl rfl respond_fault_getLsbD_false hr.drain

theorem execBOnpacket_keeps_inv {s t : State} (h : s.Inv) (he : execBOnpacket s = .next t) : t.Inv := by
  rcases execBOnpacket_cases s with ⟨_, hx⟩ | ⟨_, _, _, hx⟩ | ⟨_, _, _, _, hx⟩ | ⟨r, _, hr, _, _, _, _, hx⟩ |
    ⟨r, q, hr, hsealed, hslot, hwin, _, hx⟩ <;> cases hx.symm.trans he
  · exact h.respond _ _ _ _
  · exact h.respond _ _ _ _
  · exact h.congr rfl rfl rfl rfl respond_fault_getLsbD_false
  · exact h.drained (h.receiver r hr).filling _
  · obtain ⟨hseq, hq⟩ := fieldSlot_eq_some.1 hslot
    exact h.drained ((h.receiver r hr).filling.bufferPacket hq hwin hseq hsealed (length_packetOperand_payload s)) _

/-- Every command keeps the invariants. -/
theorem exec_keeps_inv {i : Instr} {s t : State} (h : s.Inv) (he : exec i s = .next t) : t.Inv := by
  cases i
  case aInit => exact execAInit_keeps_inv h he
  case aOutput => exact execAOutput_keeps_inv h he
  case aOnack => exact execAOnack_keeps_inv h he
  case aOntimeout => exact execAOntimeout_keeps_inv h he
  case bInit => exact execBInit_keeps_inv h he
  case bOnpacket => exact execBOnpacket_keeps_inv h he
  all_goals
    obtain ⟨st, fr, v, rfl⟩ := eq_respond_of_readOnly he rfl
    exact h.respond st fr v []

end Sys2Proof.Machine

/-- Settles O56: the four things a step can do keep the invariants, a command's by its own lemma. -/
theorem stepKeepsTheInvariants : Obligations.StepKeepsTheInvariants := by
  intro s t h he
  rcases step_cases s with ⟨-, hx⟩ | ⟨rest, -, hx⟩ | ⟨cmd, image, rest, reason, -, -, hx⟩ |
    ⟨cmd, image, rest, i, -, -, hx⟩
  · cases hx.symm.trans he
    exact h.congr rfl rfl rfl rfl id
  · cases hx.symm.trans he
    exact (State.Inv.resetOf s.cfg).congr rfl rfl rfl rfl id
  · cases hx.symm.trans he
    exact (h.takeCommand image rest).respond _ _ _ _
  · exact exec_keeps_inv (h.takeCommand image rest) (hx.symm.trans he)
end

section
/-!
PROOFS. What the commands of one entity read and write: they share nothing with the other entity, so they commute with its
commands (R20, R168).
-/

open Sys2Proof Sys2Proof.Machine

namespace Sys2Proof.Machine

/-! ### What each entity owns -/

/-- `s`, with what entity A owns, the faults and the outputs taken from `o` (R20, R22, R33). -/
def State.withSenderOf (s o : State) : State :=
  { s with
    sender := o.sender, aTrun := o.aTrun, cntPacketsResent := o.cntPacketsResent, cntNewAcks := o.cntNewAcks
    cntWindowFull := o.cntWindowFull, cntTotalAcksReceived := o.cntTotalAcksReceived
    fault := o.fault, resp := o.resp, events := o.events }

/-- `s`, with what entity B owns, the faults and the outputs taken from `o` (R20, R22, R33). -/
def State.withReceiverOf (s o : State) : State :=
  { s with
    receiver := o.receiver, cntPacketsReceived := o.cntPacketsReceived
    fault := o.fault, resp := o.resp, events := o.events }

/-! ### What each entity's commands read and write -/

/-- A command of A writes A's part of the state alone, and answers the same whatever B's part and `FAULT` hold. -/
theorem senderCommand_local {i : Instr} (hi : isSenderCommand i = true) (s : State) :
    ∃ u st fr v evs, exec i s = .next (respond u st fr v evs) ∧ u = s.withSenderOf u ∧ u.fault = s.fault ∧
      ∀ o, exec i (s.withReceiverOf o) = .next (respond (u.withReceiverOf o) st fr v evs) := by
  have hsender : ∀ o, (s.withReceiverOf o).sender = s.sender := fun _ => rfl
  have hcfg : ∀ o, (s.withReceiverOf o).cfg = s.cfg := fun _ => rfl
  have hpacket : ∀ o, packetOperand (s.withReceiverOf o) = packetOperand s := fun _ => rfl
  cases i with
  | aInit =>
    simp only [exec, execAInit, hsender]
    cases s.sender <;> exact ⟨_, _, _, _, _, rfl, rfl, rfl, fun _ => rfl⟩
  | aOutput =>
    simp only [exec, execAOutput, hsender, hcfg]
    cases s.sender
    · exact ⟨_, _, _, _, _, rfl, rfl, rfl, fun _ => rfl⟩
    · dsimp only
      split <;> exact ⟨_, _, _, _, _, rfl, rfl, rfl, fun _ => rfl⟩
  | aOnack =>
    simp only [exec, execAOnack, hsender, hcfg, hpacket]
    cases s.sender
    · exact ⟨_, _, _, _, _, rfl, rfl, rfl, fun _ => rfl⟩
    · dsimp only
      repeat' split
      all_goals exact ⟨_, _, _, _, _, rfl, rfl, rfl, fun _ => rfl⟩
  | aOntimeout =>
    simp only [exec, execAOntimeout, hsender]
    cases s.sender <;> exact ⟨_, _, _, _, _, rfl, rfl, rfl, fun _ => rfl⟩
  | rdist | rinc | rdec | rinwin | csum | chk | bInit | bOnpacket | bOutput | bTimerint | rdsr => cases hi

/-- The end of the window branch of `B_ONPACKET` writes B's part alone, and is the same whatever A's part and `FAULT` hold. -/
theorem drainAndAck_local (s : State) (r : Receiver) (st : Status) :
    ∃ u st' fr v evs, drainAndAck s r st = .next (respond u st' fr v evs) ∧ u = s.withReceiverOf u ∧ u.fault = s.fault ∧
      ∀ o, drainAndAck (s.withSenderOf o) r st = .next (respond (u.withSenderOf o) st' fr v evs) := by
  have hcfg : ∀ o, (s.withSenderOf o).cfg = s.cfg := fun _ => rfl
  have hdrain : ∀ o, drain (s.withSenderOf o) s.cfg.S r = drain s s.cfg.S r := fun o =>
    drain_congr (s := s) (t := s.withSenderOf o) rfl rfl _ _
  simp only [drainAndAck, hcfg, hdrain]
  exact ⟨_, _, _, _, _, rfl, rfl, rfl, fun _ => rfl⟩

/-- A command of B writes B's part of the state alone, and answers the same whatever A's part and `FAULT` hold. -/
theorem receiverCommand_local {i : Instr} (hi : isReceiverCommand i = true) (s : State) :
    ∃ u st fr v evs, exec i s = .next (respond u st fr v evs) ∧ u = s.withReceiverOf u ∧ u.fault = s.fault ∧
      ∀ o, exec i (s.withSenderOf o) = .next (respond (u.withSenderOf o) st fr v evs) := by
  have hreceiver : ∀ o, (s.withSenderOf o).receiver = s.receiver := fun _ => rfl
  have hcfg : ∀ o, (s.withSenderOf o).cfg = s.cfg := fun _ => rfl
  have hpacket : ∀ o, packetOperand (s.withSenderOf o) = packetOperand s := fun _ => rfl
  cases i with
  | bInit =>
    simp only [exec, execBInit, hreceiver]
    cases s.receiver <;> exact ⟨_, _, _, _, _, rfl, rfl, rfl, fun _ => rfl⟩
  | bOnpacket =>
    simp only [exec, execBOnpacket, hreceiver, hcfg, hpacket]
    cases s.receiver
    · exact ⟨_, _, _, _, _, rfl, rfl, rfl, fun _ => rfl⟩
    · dsimp only
      split
      · exact ⟨_, _, _, _, _, rfl, rfl, rfl, fun _ => rfl⟩
      · split
        · exact ⟨_, _, _, _, _, rfl, rfl, rfl, fun _ => rfl⟩
        · split
          · exact ⟨_, _, _, _, _, rfl, rfl, rfl, fun _ => rfl⟩
          · split <;> exact drainAndAck_local _ _ _
  | bOutput | bTimerint => exact ⟨_, _, _, _, _, rfl, rfl, rfl, fun _ => rfl⟩
  | rdist | rinc | rdec | rinwin | csum | chk | aInit | aOutput | aOnack | aOntimeout | rdsr => cases hi

/-! ### The faults of a command -/

/-- A command has one response, whose faults, added to `FAULT`, are none or one that it can raise or flag (R79, R151). -/
theorem exec_response {i : Instr} {s t : State} (h : exec i s = .next t) :
    ∃ r, t.resp = some r ∧ t.fault = s.fault ||| r.fr ∧
      (r.fr = 0 ∨ ∃ f ∈ abortingFaults i ++ timerFaults i, r.fr = faultMask f) := by
  rcases exec_raises_or_completes i s with ⟨f, hf, hx⟩ | ⟨u, st, fr, v, evs, hx, -, hfr, -, hfault, -⟩
  · cases hx.symm.trans h
    exact ⟨_, rfl, rfl, .inr ⟨f, List.mem_append_left _ hf, rfl⟩⟩
  · cases hx.symm.trans h
    refine ⟨_, rfl, by rw [respond_fault, hfault], hfr.imp_right ?_⟩
    rintro ⟨f, hf, rfl⟩
    exact ⟨f, List.mem_append_right _ hf, rfl⟩

/-- The bits of `FAULT` that a command can neither raise nor flag stay as they are. -/
theorem exec_keeps_fault_bits {i : Instr} {s t : State} (h : exec i s = .next t) {m : BitVec 9}
    (hm : ∀ f ∈ abortingFaults i ++ timerFaults i, faultMask f &&& m = 0) : t.fault &&& m = s.fault &&& m := by
  obtain ⟨r, -, hfault, hfr⟩ := exec_response h
  have hzero : r.fr &&& m = 0 := by
    rcases hfr with hfr | ⟨f, hf, hfr⟩
    · rw [hfr]; exact BitVec.zero_and
    · rw [hfr, hm f hf]
  rw [hfault, BitVec.and_or_distrib_right, hzero]
  exact BitVec.or_zero

/-- A's commands raise and flag faults of A alone (R151). -/
theorem senderCommand_faults {i : Instr} (hi : isSenderCommand i = true) :
    ∀ f ∈ abortingFaults i ++ timerFaults i, faultMask f &&& 0x033 = 0 := by
  cases i with
  | aInit | aOutput | aOnack | aOntimeout => decide
  | rdist | rinc | rdec | rinwin | csum | chk | bInit | bOnpacket | bOutput | bTimerint | rdsr => cases hi

/-- B's commands raise faults of B alone (R151). -/
theorem receiverCommand_faults {i : Instr} (hi : isReceiverCommand i = true) :
    ∀ f ∈ abortingFaults i ++ timerFaults i, faultMask f &&& 0x1CF = 0 := by
  cases i with
  | bInit | bOnpacket | bOutput | bTimerint => decide
  | rdist | rinc | rdec | rinwin | csum | chk | aInit | aOutput | aOnack | aOntimeout | rdsr => cases hi

/-! ### What each entity's commands leave unchanged -/

theorem senderCommand_frame {i : Instr} {s t : State} (hi : isSenderCommand i = true) (h : exec i s = .next t) :
    t.receiver = s.receiver ∧ t.cntPacketsReceived = s.cntPacketsReceived := by
  obtain ⟨u, st, fr, v, evs, hx, hu, -, -⟩ := senderCommand_local hi s
  cases hx.symm.trans h
  rw [hu]
  exact ⟨rfl, rfl⟩

theorem receiverCommand_frame {i : Instr} {s t : State} (hi : isReceiverCommand i = true) (h : exec i s = .next t) :
    t.sender = s.sender ∧ t.aTrun = s.aTrun ∧ t.cntPacketsResent = s.cntPacketsResent ∧ t.cntNewAcks = s.cntNewAcks ∧
      t.cntWindowFull = s.cntWindowFull ∧ t.cntTotalAcksReceived = s.cntTotalAcksReceived := by
  obtain ⟨u, st, fr, v, evs, hx, hu, -, -⟩ := receiverCommand_local hi s
  cases hx.symm.trans h
  rw [hu]
  exact ⟨rfl, rfl, rfl, rfl, rfl, rfl⟩

end Sys2Proof.Machine

/-- Settles O53: the registers and counters by each entity's frame, `FAULT` by the faults that its commands raise. -/
theorem entitiesShareNothing : Obligations.EntitiesShareNothing := by
  intro i s t h
  refine ⟨fun hi => ?_, fun hi => ?_⟩
  · obtain ⟨hreceiver, hcnt⟩ := senderCommand_frame hi h
    exact ⟨hreceiver, hcnt, exec_keeps_fault_bits h (senderCommand_faults hi)⟩
  · obtain ⟨hsender, hrun, hresent, hnew, hfull, htotal⟩ := receiverCommand_frame hi h
    exact ⟨hsender, hrun, hresent, hnew, hfull, htotal, exec_keeps_fault_bits h (receiverCommand_faults hi)⟩

/-- Settles O54: what each command does to the other's result is what it does alone, and the two write apart. -/
theorem entitiesCommute : Obligations.EntitiesCommute := by
  intro a b s imageA imageB ha hb
  obtain ⟨u, stA, frA, vA, evsA, hA, hu, hufault, hAafter⟩ := senderCommand_local ha { s with ibuf := imageA }
  obtain ⟨v, stB, frB, vB, evsB, hB, hv, hvfault, hBafter⟩ := receiverCommand_local hb { s with ibuf := imageB }
  -- After the other command, each finds its own part of the state as it was.
  have hstartB : { respond u stA frA vA evsA with ibuf := imageB } =
      State.withSenderOf { s with ibuf := imageB } (respond u stA frA vA evsA) := by rw [hu]; rfl
  have hstartA : { respond v stB frB vB evsB with ibuf := imageA } =
      State.withReceiverOf { s with ibuf := imageA } (respond v stB frB vB evsB) := by rw [hv]; rfl
  refine ⟨_, _, _, _, hA, (congrArg (exec b) hstartB).trans (hBafter _), hB,
    (congrArg (exec a) hstartA).trans (hAafter _), ?_, rfl, rfl, rfl, rfl⟩
  have hfault : u.fault ||| frA ||| frB = v.fault ||| frB ||| frA := by
    rw [hufault, hvfault, BitVec.or_assoc, BitVec.or_comm frA, ← BitVec.or_assoc]
  rw [hu, hv]
  simp only [State.withoutOutputs, State.withSenderOf, State.withReceiverOf, respond, hfault]
end

section
/-!
PROOFS. What follows from the invariants: the bound on the outstanding slots, and that no timer is stopped twice (R113, R124).
-/

open Sys2Proof Sys2Proof.Machine

namespace Sys2Proof.Machine

theorem faultMask_getLsbD_seven (f : FaultName) : (faultMask f).getLsbD 7 = decide (f = .tDstop) := by
  cases f <;> rfl

/-- Only `A_ONACK` can flag `T_DSTOP` (R153). -/
theorem eq_aOnack_of_tDstop {i : Instr} (h : .tDstop ∈ abortingFaults i ++ timerFaults i) : i = .aOnack := by
  cases i <;> simp [abortingFaults, timerFaults] at h
  rfl

/-- A new acknowledgment is of a valid slot, so packets are outstanding and the timer that it stops runs (C13). -/
theorem execAOnack_no_dstop {s t : State} (h : s.Inv) (he : execAOnack s = .next t) {r : Response} (hr : t.resp = some r) :
    r.fr.getLsbD 7 = false := by
  rcases execAOnack_cases s with ⟨_, hx⟩ | ⟨_, _, _, hx⟩ | ⟨_, _, _, _, hx⟩ | ⟨_, _, _, _, _, _, _, _, hx⟩ |
    ⟨w, k, hw, _, _, _, hvalid, _, hx⟩ <;> cases hx.symm.trans he <;> cases hr
  · decide
  · decide
  · decide
  · decide
  · have hinv := h.sender w hw
    rw [hinv.valid_iff, inRun_iff] at hvalid
    have hrun : s.aTrun = true := hinv.running_of_count (by omega)
    simp [ackTimer_fr, hrun]

/-- No command flags `T_DSTOP` in a state of the invariants. -/
theorem exec_no_dstop {i : Instr} {s t : State} (h : s.Inv) (he : exec i s = .next t) {r : Response} (hr : t.resp = some r) :
    r.fr.getLsbD 7 = false := by
  by_cases hi : i = .aOnack
  · subst hi
    exact execAOnack_no_dstop h he hr
  · obtain ⟨r', hr', -, hfr⟩ := exec_response he
    cases hr.symm.trans hr'
    rcases hfr with hfr | ⟨f, hf, hfr⟩
    · rw [hfr]; rfl
    · rw [hfr, faultMask_getLsbD_seven, decide_eq_false_iff_not]
      rintro rfl
      exact hi (eq_aOnack_of_tDstop hf)

end Sys2Proof.Machine

/-- Settles O35: the valid slots are a run of `A_COUNT` slots, which is at most `W` long. -/
theorem atMostWindowOutstanding : Obligations.AtMostWindowOutstanding := by
  intro s w h hw
  have hinv := h.sender w hw
  have hvalid : ((List.range s.cfg.S).filter (fun k => flagGet w.valid k)).length = windowCount s.cfg w := by
    rw [funext hinv.valid_iff]
    exact length_filter_inRun hinv.base_lt (ringDist_lt s.cfg _ _).le
  refine ⟨hvalid, ?_⟩
  calc ((List.range s.cfg.S).filter (fun k => flagGet w.valid k && !flagGet w.acked k)).length
      ≤ ((List.range s.cfg.S).filter (fun k => flagGet w.valid k)).length :=
        (List.monotone_filter_right _ fun k hk => (Bool.and_eq_true _ _ ▸ hk).1).length_le
    _ = windowCount s.cfg w := hvalid
    _ ≤ s.cfg.W := hinv.count_le

/-- Settles O37: a step that executes a command flags no `T_DSTOP`, and the others flag nothing or `ILLCMD`. -/
theorem doubleStopIsUnreachable : Obligations.DoubleStopIsUnreachable := by
  intro s t h he
  rcases step_cases s with ⟨-, hx⟩ | ⟨rest, -, hx⟩ | ⟨cmd, image, rest, reason, -, -, hx⟩ |
    ⟨cmd, image, rest, i, -, -, hx⟩
  · cases hx.symm.trans he
    exact ⟨id, fun r hr => by cases hr⟩
  · cases hx.symm.trans he
    exact ⟨by simp, fun r hr => by cases hr⟩
  · cases hx.symm.trans he
    refine ⟨?_, fun r hr => ?_⟩
    · simp [faultMask, faultBit]
    · cases hr; decide
  · have he := hx.symm.trans he
    have hno : ∀ r, t.resp = some r → r.fr.getLsbD 7 = false := fun r hr => exec_no_dstop (h.takeCommand image rest) he hr
    obtain ⟨r, hr, hfault, -⟩ := exec_response he
    refine ⟨fun hset => ?_, hno⟩
    rwa [hfault, BitVec.getLsbD_or, hno r hr, Bool.or_false] at hset
end

section
/-!
PROOFS. What a step does with the host's move, and the state after reset (R41, R70, R146, R175).
-/

open Sys2Proof Sys2Proof.Machine

namespace Sys2Proof.Machine

/-- A response without a fault leaves `FAULT` as it is. -/
theorem respond_no_fault (s : State) (st : Status) (v : Word) (evs : List Event) :
    respond s st 0 v evs = { s with resp := some ⟨st, 0, v⟩, events := evs } := by
  have hfault : s.fault ||| 0 = s.fault := BitVec.or_zero
  rw [respond, hfault]

/-! ### Initialised flags -/

/-- Every command leaves an initialised entity A initialised: what writes its window state writes a window state. -/
theorem exec_keeps_aInitd {i : Instr} {s t : State} (h : exec i s = .next t) (hs : s.aInitd = true) : t.aInitd = true := by
  cases i
  case aInit =>
    rcases execAInit_cases s with ⟨_, _, hx⟩ | ⟨_, hx⟩ <;> cases hx.symm.trans h
    · exact hs
    · rfl
  case aOutput =>
    rcases execAOutput_cases s with ⟨_, hx⟩ | ⟨_, _, _, hx⟩ | ⟨_, _, _, hx⟩ <;> cases hx.symm.trans h
    · exact hs
    · rfl
    · exact hs
  case aOnack =>
    rcases execAOnack_cases s with ⟨_, hx⟩ | ⟨_, _, _, hx⟩ | ⟨_, _, _, _, hx⟩ | ⟨_, _, _, _, _, _, _, _, hx⟩ |
      ⟨_, _, _, _, _, _, _, _, hx⟩ <;> cases hx.symm.trans h
    · exact hs
    · exact hs
    · exact hs
    · exact hs
    · rfl
  case aOntimeout =>
    rcases execAOntimeout_cases s with ⟨_, hx⟩ | ⟨_, _, hx⟩ <;> cases hx.symm.trans h
    · exact hs
    · rfl
  case bInit | bOnpacket =>
    rw [State.aInitd, (receiverCommand_frame rfl h).1]
    exact hs
  all_goals
    obtain ⟨st, fr, v, rfl⟩ := eq_respond_of_readOnly h rfl
    exact hs

/-- Every command leaves an initialised entity B initialised. -/
theorem exec_keeps_bInitd {i : Instr} {s t : State} (h : exec i s = .next t) (hs : s.bInitd = true) : t.bInitd = true := by
  cases i
  case bInit =>
    rcases execBInit_cases s with ⟨_, _, hx⟩ | ⟨_, hx⟩ <;> cases hx.symm.trans h
    · exact hs
    · rfl
  case bOnpacket =>
    rcases execBOnpacket_cases s with ⟨_, hx⟩ | ⟨_, _, _, hx⟩ | ⟨_, _, _, _, hx⟩ | ⟨_, _, _, _, _, _, _, hx⟩ |
      ⟨_, _, _, _, _, _, _, hx⟩ <;> cases hx.symm.trans h
    · exact hs
    · exact hs
    · exact hs
    · rfl
    · rfl
  case aInit | aOutput | aOnack | aOntimeout =>
    rw [State.bInitd, (senderCommand_frame rfl h).1]
    exact hs
  all_goals
    obtain ⟨st, fr, v, rfl⟩ := eq_respond_of_readOnly h rfl
    exact hs

/-- Faults are sticky: what is added to `FAULT` clears nothing. -/
theorem fault_sticky {f g fr : BitVec 9} (hg : g = f ||| fr) {k : Nat} (hk : f.getLsbD k = true) : g.getLsbD k = true := by
  rw [hg, BitVec.getLsbD_or, hk, Bool.true_or]

end Sys2Proof.Machine

/-- Settles O45: every command ends in `respond`, of a state whose faults and inputs are as before. -/
theorem everyCommandResponds : Obligations.EveryCommandResponds := by
  intro i s
  obtain ⟨u, st, fr, v, evs, hx, hcfg, hfault, hinputs, hibuf, hsample⟩ := exec_shape i s
  exact ⟨_, _, hx, rfl, by rw [respond_fault, hfault], hcfg, hibuf, hinputs, hsample⟩

/-- Settles O49: without a `RESET`, a step adds faults to `FAULT` and keeps what is initialised. -/
theorem onlyResetClearsFaults : Obligations.OnlyResetClearsFaults := by
  intro s t h hno
  rcases step_cases s with ⟨-, hx⟩ | ⟨rest, hin, -⟩ | ⟨cmd, image, rest, reason, -, -, hx⟩ |
    ⟨cmd, image, rest, i, -, -, hx⟩
  · cases hx.symm.trans h
    exact ⟨fun _ => id, id, id⟩
  · exact absurd hin (hno rest)
  · cases hx.symm.trans h
    exact ⟨fun _ => fault_sticky rfl, id, id⟩
  · have he := hx.symm.trans h
    obtain ⟨r, -, hfault, -⟩ := exec_response he
    exact ⟨fun _ => fault_sticky hfault, fun ha => exec_keeps_aInitd he ha, fun hb => exec_keeps_bInitd he hb⟩

/-- Settles O5: the step's own arm for a command whose word decodes. -/
theorem stepExecutesTheDecodedCommand : Obligations.StepExecutesTheDecodedCommand := by
  intro s cmd image rest i hin hdec
  rcases step_cases s with ⟨hin', -⟩ | ⟨_, hin', -⟩ | ⟨_, _, _, _, hin', hdec', -⟩ | ⟨_, _, _, _, hin', hdec', hx⟩ <;>
    cases hin.symm.trans hin'
  · cases hdec.symm.trans hdec'
  · cases hdec.symm.trans hdec'
    exact hx

/-- Settles O7: the step's own arm for `RESET`. -/
theorem resetMoveResetsEverything : Obligations.ResetMoveResetsEverything := by
  intro s rest hin
  rcases step_cases s with ⟨hin', -⟩ | ⟨_, hin', hx⟩ | ⟨_, _, _, _, hin', -, -⟩ | ⟨_, _, _, _, hin', -, -⟩ <;>
    cases hin.symm.trans hin'
  exact hx

/-- Settles O58: nothing is initialised after reset, so the invariants ask for the stopped timer alone. -/
theorem resetHasTheInvariants : Obligations.ResetHasTheInvariants := by
  refine fun c => ⟨State.Inv.resetOf c, ?_⟩
  constructor <;> simp

/-- Settles O26: an entity that is not initialised is not refused its `INIT`. -/
theorem initCommandsSetTheirValues : Obligations.InitCommandsSetTheirValues := by
  intro s
  refine ⟨fun hnone => ?_, fun hnone => ?_⟩
  · rcases execAInit_cases s with ⟨w, hw, -⟩ | ⟨-, hx⟩
    · cases hnone.symm.trans hw
    · rw [exec, hx, respond_no_fault]; rfl
  · rcases execBInit_cases s with ⟨r, hr, -⟩ | ⟨-, hx⟩
    · cases hnone.symm.trans hr
    · rw [exec, hx, respond_no_fault]; rfl
end

section
/-!
PROOFS. The read-only views: the bits of `STATUS`, and what `RDSR` reads (R31, R40, R145).
-/

open Sys2Proof Sys2Proof.Machine

namespace Sys2Proof.Machine

/-! ### `STATUS` -/

theorem viewBit_getLsbD (b : Bool) {k : Nat} (hk : k < 32) (j : Nat) :
    (viewBit b k).getLsbD j = (decide (j = k) && b) := by
  rw [viewBit, BitVec.getLsbD_shiftLeft, BitVec.getLsbD_setWidth, BitVec.getLsbD_ofBool]
  by_cases hj : j = k
  · simp [hj, hk]
  · have : j < k ∨ j - k ≠ 0 := by omega
    rcases this with h | h <;> simp [h, hj]

/-- Every bit of `STATUS` (R31). -/
theorem statusWord_getLsbD (s : State) (j : Nat) :
    (statusWord s).getLsbD j =
      (decide (j = 0) && s.aInitd || decide (j = 1) && s.bInitd || decide (j = 2) && s.aTrun ||
        decide (j = 3) && errOut s || decide (j = 4) && aEmpty s || decide (j = 5) && aFull s) := by
  simp only [statusWord, BitVec.getLsbD_or, viewBit_getLsbD, Nat.reduceLT]

/-- `STATUS` after reset (R31, R41). -/
theorem statusWord_resetOf (c : Config) : statusWord (State.resetOf c) = 0 := by
  simp [statusWord, State.aInitd, State.bInitd, errOut, aEmpty, aFull, viewBit]

/-! ### `RDSR` -/

/-- What `RDSR` answers for a register that has a value, with an index that is legal for it (R145). -/
theorem exec_rdsr {s : State} {n i : Nat} {reg : ReadReg} {v : Word} (hreg : readRegOf n = some reg)
    (hidx : isReadIndex s.cfg reg i = true) (hread : readReg s reg i = .ok v) :
    exec (.rdsr n i) s = .next { s with resp := some ⟨.ok, 0, v⟩, events := [] } := by
  simp only [exec, execRdsr, hreg, hidx, hread, if_true, respond_no_fault]

/-- The index is 0 for a register that is not a slot's. -/
theorem exec_rdsr_zero {s : State} {n : Nat} {reg : ReadReg} {v : Word} (hreg : readRegOf n = some reg)
    (hslot : isSlotReg reg = false) (hread : readReg s reg 0 = .ok v) :
    exec (.rdsr n 0) s = .next { s with resp := some ⟨.ok, 0, v⟩, events := [] } :=
  exec_rdsr hreg (by simp [isReadIndex, hslot]) hread

theorem readSender_of_some {s : State} {w : Sender} (h : s.sender = some w) (value : Sender → Word) :
    readSender s value = .ok (value w) := by rw [readSender, h]

theorem readReceiver_of_some {s : State} {r : Receiver} (h : s.receiver = some r) (value : Receiver → Word) :
    readReceiver s value = .ok (value r) := by rw [readReceiver, h]

theorem senderSlotWord_eq (w : Sender) (k : Nat) :
    senderSlotWord w k = BitVec.ofNat 32 ((flagGet w.valid k).toNat + 2 * (flagGet w.acked k).toNat) := by
  rw [senderSlotWord]
  cases flagGet w.valid k <;> cases flagGet w.acked k <;> rfl

theorem receiverSlotWord_eq (r : Receiver) (k : Nat) :
    receiverSlotWord r k = BitVec.ofNat 32 (flagGet r.rcvd k).toNat := by
  rw [receiverSlotWord]
  cases flagGet r.rcvd k <;> rfl

end Sys2Proof.Machine

/-- Settles O43: each bit by the place of its flag in `STATUS`. -/
theorem statusBits : Obligations.StatusBits := by
  intro s
  simp only [statusWord_getLsbD]
  refine ⟨?_, ?_, ?_, ?_, fun w hw => ?_, fun hnone => ?_, fun k hk => ?_, statusWord_resetOf⟩
  · simp
  · simp
  · simp
  · simp [errOut, bne, Bool.beq_eq_decide_eq]
  · have hempty : aEmpty s = decide (w.base = w.next) := by rw [aEmpty, hw]; rfl
    have hfull : aFull s = decide (s.cfg.W ≤ ringDist s.cfg w.next w.base) := by rw [aFull, hw]; rfl
    simp [hempty, hfull]
  · simp [aEmpty, aFull, hnone]
  · have h0 : ∀ b < 6, (decide (k = b)) = false := fun b hb => decide_eq_false (by omega)
    simp [h0]

/-- Settles O8: every field by the state's definition, and the views of it by their values. -/
theorem resetValues : Obligations.ResetValues :=
  fun c => ⟨rfl, rfl, rfl, rfl, rfl, rfl, rfl, rfl, rfl, rfl, rfl, rfl, rfl, statusWord_resetOf c, rfl⟩

/-- Settles O41: each register of the table has the value in its row, the slot registers for every slot. -/
theorem rdsrReadsTheTable : Obligations.RdsrReadsTheTable := by
  intro s
  refine ⟨exec_rdsr_zero rfl rfl rfl, exec_rdsr_zero rfl rfl rfl, exec_rdsr_zero rfl rfl rfl, exec_rdsr_zero rfl rfl rfl,
    fun w hw => ?_, fun r hr => ?_, exec_rdsr_zero rfl rfl rfl, exec_rdsr_zero rfl rfl rfl, exec_rdsr_zero rfl rfl rfl,
    exec_rdsr_zero rfl rfl rfl, exec_rdsr_zero rfl rfl rfl⟩
  · refine ⟨exec_rdsr_zero rfl rfl (readSender_of_some hw _), exec_rdsr_zero rfl rfl (readSender_of_some hw _),
      exec_rdsr_zero rfl rfl (readSender_of_some hw _), exec_rdsr_zero rfl rfl (readSender_of_some hw _), fun b hb => ?_⟩
    rw [← senderSlotWord_eq]
    exact exec_rdsr (reg := .aSlot) rfl (decide_eq_true hb) (readSender_of_some hw _)
  · refine ⟨exec_rdsr_zero rfl rfl (readReceiver_of_some hr _), fun b hb => ?_⟩
    rw [← receiverSlotWord_eq]
    exact exec_rdsr (reg := .bSlot) rfl (decide_eq_true hb) (readReceiver_of_some hr _)
end

section
/-!
PROOFS. Every step keeps every memory in its canonical form: `IBUF`, the images to come and both slot stores (R50 to R52).
-/

open Sys2Proof Sys2Proof.Machine

namespace Sys2Proof.Machine

/-! ### Both loops keep the slot stores in canonical form -/

/-- Whatever the window's registers hold, the slide only clears entries. -/
theorem slide_keeps_storeWf (c : Config) (turns : Nat) {w : Sender} (h : storeWf w.pkts) :
    storeWf (slide c turns w).1.pkts := by
  induction turns generalizing w with
  | zero => exact h
  | succ n ih =>
    rw [slide]
    split
    · exact ih (w := retire c w) (storeWf_storeClear h _)
    · exact h

/-- Whatever the window's register holds, the drain only clears entries. -/
theorem drain_keeps_storeWf (s : State) (turns : Nat) {r : Receiver} (h : storeWf r.pkts) :
    storeWf (drain s turns r).1.pkts := by
  induction turns generalizing r with
  | zero => exact h
  | succ n ih =>
    rw [drain]
    split
    · exact ih (r := passSlot s.cfg r) (storeWf_storeClear h _)
    · exact h

/-! ### Every command keeps the memories in canonical form -/

/-- No command writes `IBUF` (R52). -/
theorem exec_keeps_ibuf {i : Instr} {s t : State} (h : exec i s = .next t) : t.ibuf = s.ibuf := by
  obtain ⟨u, st, fr, v, evs, hx, -, -, -, hibuf, -⟩ := exec_shape i s
  cases hx.symm.trans h
  exact hibuf

/-- Entity A's store stays canonical: a command writes one entry, clears a run of them, or leaves the store. -/
theorem exec_keeps_sender_storeWf {i : Instr} {s t : State} (h : exec i s = .next t)
    (hs : ∀ w, s.sender = some w → storeWf w.pkts) : ∀ w, t.sender = some w → storeWf w.pkts := by
  cases i
  case aInit =>
    rcases execAInit_cases s with ⟨_, _, hx⟩ | ⟨_, hx⟩ <;> cases hx.symm.trans h
    · exact hs
    · rintro _ ⟨⟩; exact storeWf_nil
  case aOutput =>
    rcases execAOutput_cases s with ⟨_, hx⟩ | ⟨w, hw, _, hx⟩ | ⟨_, _, _, hx⟩ <;> cases hx.symm.trans h
    · exact hs
    · rintro _ ⟨⟩; exact storeWf_storeWrite (hs w hw) _ _
    · exact hs
  case aOnack =>
    rcases execAOnack_cases s with ⟨_, hx⟩ | ⟨_, _, _, hx⟩ | ⟨_, _, _, _, hx⟩ | ⟨_, _, _, _, _, _, _, _, hx⟩ |
      ⟨w, _, hw, _, _, _, _, _, hx⟩ <;> cases hx.symm.trans h
    · exact hs
    · exact hs
    · exact hs
    · exact hs
    · rintro _ ⟨⟩; exact slide_keeps_storeWf _ _ (hs w hw)
  case aOntimeout =>
    rcases execAOntimeout_cases s with ⟨_, hx⟩ | ⟨w, hw, hx⟩ <;> cases hx.symm.trans h
    · exact hs
    · rintro _ ⟨⟩; exact hs w hw
  case bInit | bOnpacket =>
    rw [(receiverCommand_frame rfl h).1]
    exact hs
  all_goals
    obtain ⟨st, fr, v, rfl⟩ := eq_respond_of_readOnly h rfl
    exact hs

/-- Entity B's store stays canonical: a packet writes one entry at most, and the drain clears a run of them. -/
theorem exec_keeps_receiver_storeWf {i : Instr} {s t : State} (h : exec i s = .next t)
    (hs : ∀ r, s.receiver = some r → storeWf r.pkts) : ∀ r, t.receiver = some r → storeWf r.pkts := by
  cases i
  case bInit =>
    rcases execBInit_cases s with ⟨_, _, hx⟩ | ⟨_, hx⟩ <;> cases hx.symm.trans h
    · exact hs
    · rintro _ ⟨⟩; exact storeWf_nil
  case bOnpacket =>
    rcases execBOnpacket_cases s with ⟨_, hx⟩ | ⟨_, _, _, hx⟩ | ⟨_, _, _, _, hx⟩ | ⟨r, _, hr, _, _, _, _, hx⟩ |
      ⟨r, _, hr, _, _, _, _, hx⟩ <;> cases hx.symm.trans h
    · exact hs
    · exact hs
    · exact hs
    · rintro _ ⟨⟩; exact drain_keeps_storeWf _ _ (hs r hr)
    · rintro _ ⟨⟩; exact drain_keeps_storeWf _ _ (storeWf_storeWrite (hs r hr) _ _)
  case aInit | aOutput | aOnack | aOntimeout =>
    rw [(senderCommand_frame rfl h).1]
    exact hs
  all_goals
    obtain ⟨st, fr, v, rfl⟩ := eq_respond_of_readOnly h rfl
    exact hs

theorem exec_keeps_memoryWf {i : Instr} {s t : State} (hs : s.MemoryWf) (h : exec i s = .next t) : t.MemoryWf where
  ibuf := exec_keeps_ibuf h ▸ hs.ibuf
  inputs := (exec_keeps_cfg_and_inputs h).2 ▸ hs.inputs
  sender := exec_keeps_sender_storeWf h hs.sender
  receiver := exec_keeps_receiver_storeWf h hs.receiver

/-- The image that a command is issued with is one of the images to come, so sampling it keeps the canonical form. -/
theorem State.MemoryWf.takeCommand {s : State} {cmd : Word} {image : Memory} {rest : List HostInput} (h : s.MemoryWf)
    (hin : s.inputs = .command cmd image :: rest) : (takeCommand s image rest).MemoryWf where
  ibuf := h.inputs (.command cmd image) (by simp [hin])
  inputs := fun m hm => h.inputs m (by simpa [hin] using .inr hm)
  sender := h.sender
  receiver := h.receiver

end Sys2Proof.Machine

/-- Settles O57: the four things a step can do keep the canonical forms, a command's by its own lemma. -/
theorem stepKeepsMemoryCanonical : Obligations.StepKeepsMemoryCanonical := by
  intro s t h he
  rcases step_cases s with ⟨-, hx⟩ | ⟨rest, hin, hx⟩ | ⟨cmd, image, rest, reason, hin, -, hx⟩ |
    ⟨cmd, image, rest, i, hin, -, hx⟩
  · cases hx.symm.trans he
    exact ⟨h.ibuf, h.inputs, h.sender, h.receiver⟩
  · cases hx.symm.trans he
    exact ⟨h.ibuf, fun m hm => h.inputs m (hin ▸ List.mem_cons_of_mem _ hm), by simp, by simp⟩
  · cases hx.symm.trans he
    have h := h.takeCommand hin
    exact ⟨h.ibuf, h.inputs, h.sender, h.receiver⟩
  · exact exec_keeps_memoryWf (h.takeCommand hin) (hx.symm.trans he)
end

section
/-!
PROOFS. What an image's bytes stand for, the two commands that read one without writing, and the other read-only commands
(R53 to R57, R104, R105).
-/

open Sys2Proof Sys2Proof.Machine

namespace Sys2Proof.Machine

/-! ### The place of each field of an image (R53, R55) -/

/-- A 32-bit pattern is the concatenation of its four bytes. -/
theorem append_bytes_eq (v : Word) :
    (v.extractLsb' 24 8 ++ v.extractLsb' 16 8 ++ v.extractLsb' 8 8 ++ v.extractLsb' 0 8 : BitVec 32) = v := by
  rw [BitVec.extractLsb'_append_extractLsb'_eq_extractLsb' (by rfl),
    BitVec.extractLsb'_append_extractLsb'_eq_extractLsb' (by rfl),
    BitVec.extractLsb'_append_extractLsb'_eq_extractLsb' (by rfl)]
  exact BitVec.extractLsb'_eq_self

/-- The four bytes of a concatenation, least significant first, are the bytes concatenated. -/
theorem leBytes_append (b3 b2 b1 b0 : Byte) : leBytes (b3 ++ b2 ++ b1 ++ b0 : BitVec 32) = [b0, b1, b2, b3] := by
  simp only [leBytes, BitVec.extractLsb'_append_eq_ite]
  simp

/-- Writing a field read from an image gives the four bytes it was read from. -/
theorem leBytes_memRead (img : Nat → Byte) (a : Nat) :
    leBytes (BitVec.ofNat 32 (memRead img a 4)) = (List.range 4).map (fun i => img (a + i)) := by
  rw [memRead_four]
  exact leBytes_append _ _ _ _

/-- The image that holds the listed bytes, as `PktUnpack` takes it. -/
def bytesImage (bytes : List Byte) (k : Nat) : Byte := bytes.getD k 0

/-- A byte of a part of the list, found past the part before it. -/
theorem bytesImage_middle (before part after : List Byte) {i : Nat} (hi : i < part.length) :
    bytesImage (before ++ part ++ after) (before.length + i) = part[i] := by
  rw [bytesImage, List.getD_append _ _ _ _ (by simp [hi]), List.getD_append_right _ _ _ _ (by omega),
    Nat.add_sub_cancel_left, List.getD_eq_getElem _ _ hi]

/-- Reading a field from where its four bytes stand gives it back. -/
theorem memRead_bytesImage (before after : List Byte) (v : Word) :
    BitVec.ofNat 32 (memRead (bytesImage (before ++ leBytes v ++ after)) before.length 4) = v := by
  have hbyte : ∀ i (hi : i < 4), bytesImage (before ++ leBytes v ++ after) (before.length + i) = (leBytes v)[i] :=
    fun i hi => bytesImage_middle before (leBytes v) after hi
  rw [memRead_four, hbyte 3 (by decide), hbyte 2 (by decide), hbyte 1 (by decide),
    show bytesImage _ before.length = _ from hbyte 0 (by decide)]
  exact append_bytes_eq v

/-- Reading a part byte by byte gives it back. -/
theorem map_bytesImage (before part after : List Byte) :
    (List.range part.length).map (fun i => bytesImage (before ++ part ++ after) (before.length + i)) = part := by
  refine List.ext_getElem (by simp) fun i _ hi => ?_
  rw [List.getElem_map, List.getElem_range, bytesImage_middle before part after hi]

/-! ### `PktPack` and `PktUnpack` (R54) -/

@[simp] theorem length_leBytes (v : Word) : (leBytes v).length = 4 := rfl

theorem pktUnpack_seqnum (P : Nat) (img : Nat → Byte) :
    (pktUnpack P img).seqnum = img 3 ++ img 2 ++ img 1 ++ img 0 := memRead_four img 0

theorem pktUnpack_acknum (P : Nat) (img : Nat → Byte) :
    (pktUnpack P img).acknum = img 7 ++ img 6 ++ img 5 ++ img 4 := memRead_four img 4

theorem pktUnpack_checksum (P : Nat) (img : Nat → Byte) :
    (pktUnpack P img).checksum = img (8 + P + 3) ++ img (8 + P + 2) ++ img (8 + P + 1) ++ img (8 + P) :=
  memRead_four img (8 + P)

theorem length_pktPack (p : Packet) : (pktPack p).length = 12 + p.payload.length := by
  simp only [pktPack, List.length_append, length_leBytes]
  omega

theorem pktUnpack_pktPack (p : Packet) : pktUnpack p.payload.length (bytesImage (pktPack p)) = p := by
  obtain ⟨seq, ack, payload, sum⟩ := p
  have hseq := memRead_bytesImage [] (leBytes ack ++ payload ++ leBytes sum) seq
  have hack := memRead_bytesImage (leBytes seq) (payload ++ leBytes sum) ack
  have hpayload := map_bytesImage (leBytes seq ++ leBytes ack) payload (leBytes sum)
  have hsum := memRead_bytesImage (leBytes seq ++ leBytes ack ++ payload) [] sum
  simp only [List.nil_append, List.append_nil, List.append_assoc, List.length_append, List.length_nil,
    length_leBytes] at hseq hack hpayload hsum
  simp only [pktUnpack, pktPack, List.append_assoc, Packet.mk.injEq]
  refine ⟨hseq, hack, hpayload, ?_⟩
  rwa [← Nat.add_assoc] at hsum

theorem pktPack_pktUnpack (P : Nat) (img : Nat → Byte) : pktPack (pktUnpack P img) = (List.range (12 + P)).map img := by
  have hlen : 12 + P = 4 + 4 + P + 4 := by omega
  simp only [pktPack, pktUnpack, leBytes_memRead, hlen, List.range_add, List.map_append, List.map_map, Function.comp_def,
    Nat.zero_add]

/-! ### `CSUM` and `CHK` (R104, R105) -/

/-- `CHK` answers 1 for a corrupted packet and 0 otherwise, and changes nothing (R105). -/
theorem exec_chk (s : State) :
    exec .chk s = .next { s with
      resp := some ⟨.ok, 0, wrap32 (if isCorrupted (packetOperand s) then 1 else 0)⟩, events := [] } := by
  rw [exec, execChk, complete_eq, respond_no_fault]

/-- The payload sum of the packet operand, over the image's bytes and the integers (R101). -/
theorem payloadSum_packetOperand (s : State) :
    (payloadSum (packetOperand s).payload : Int) =
      ((List.range s.cfg.P).map (fun i => ((ibufByte s (8 + i)).toNat : Int))).sum := by
  simp only [payloadSum, packetOperand, pktUnpack, List.map_map, Nat.cast_list_sum]
  rfl

/-! ### The read-only commands (R57) -/

theorem timerFaults_of_readOnly {i : Instr} (hi : isReadOnly i = true) : timerFaults i = [] := by
  cases i with
  | rdist | rinc | rdec | rinwin | csum | chk | bOutput | bTimerint | rdsr => rfl
  | aInit | aOutput | aOnack | aOntimeout | bInit | bOnpacket => cases hi

end Sys2Proof.Machine

/-- Settles O24: the places of the fields by `PktUnpack`'s reads, and the two inverse laws. -/
theorem packAndUnpackAreInverse : Obligations.PackAndUnpackAreInverse := by
  refine ⟨fun p => ⟨length_pktPack p, pktUnpack_pktPack p⟩, fun P img => ⟨pktUnpack_seqnum P img, pktUnpack_acknum P img,
    ?_, fun i hi => ?_, pktUnpack_checksum P img, pktPack_pktUnpack P img⟩⟩
  · simp [pktUnpack]
  · simp [pktUnpack, hi]

/-- Settles O19: the header fields of the packet operand are the concatenations of their bytes. -/
theorem csumResult : Obligations.CsumResult := by
  intro s
  rw [exec, execCsum, respond_no_fault, computeChecksum, payloadSum_packetOperand, packetOperand, pktUnpack_seqnum,
    pktUnpack_acknum]
  rfl

/-- Settles O20: the checksum field of the packet operand is the concatenation of its bytes. -/
theorem chkResult : Obligations.ChkResult := by
  intro s b p sum
  have hfield : (packetOperand s).checksum = b (11 + p) ++ b (10 + p) ++ b (9 + p) ++ b (8 + p) := by
    have hplace : ∀ k, 8 + p + k = 8 + k + p := fun k => by omega
    rw [packetOperand, pktUnpack_checksum, hplace, hplace, hplace]
  rw [← hfield, exec_chk]
  refine ⟨fun heq => ?_, fun hne => ?_⟩
  · rw [isCorrupted_eq_false.2 heq]
    rfl
  · rw [isCorrupted_eq_true.2 hne]
    rfl

/-- Settles O50: a read-only command's outcome is a response to the state it found, and it flags no timer fault. -/
theorem readOnlyCommandsWriteNothing : Obligations.ReadOnlyCommandsWriteNothing := by
  intro i s t hi h
  refine ⟨?_, fun r hr hst => ?_⟩
  · obtain ⟨st, fr, v, rfl⟩ := eq_respond_of_readOnly h hi
    rfl
  · rcases exec_raises_or_completes i s with ⟨f, -, hx⟩ | ⟨u, st, fr, v, evs, hx, -, hfr, -, hfault, -⟩ <;>
      cases hx.symm.trans h <;> cases hr
    · exact absurd rfl hst
    · have hnone : fr = 0 := by simpa [timerFaults_of_readOnly hi] using hfr
      rw [respond_fault, hfault, hnone]
      exact BitVec.or_zero
end

section
/-!
PROOFS. The two window loops seen from outside: a new acknowledgment (R119) and a packet inside the window (R133, R134).
-/

open Sys2Proof Sys2Proof.Machine

namespace Sys2Proof.Machine

/-- `respond` with the fault bits it adds, when it adds them under a condition. -/
theorem respond_if (s : State) (st : Status) (p : Prop) [Decidable p] (m : BitVec 9) (v : Word) (evs : List Event) :
    respond s st (if p then m else 0) v evs =
      { s with fault := if p then s.fault ||| m else s.fault, resp := some ⟨st, if p then m else 0, v⟩, events := evs } := by
  split
  · rfl
  · exact respond_no_fault s st v evs

/-! ### A new acknowledgment -/

/-- Of the outcomes of `A_ONACK`, the one for an uncorrupted acknowledgment of a valid, unacknowledged slot in the window. -/
theorem execAOnack_new {s : State} {w : Sender} {k : Nat} (hw : s.sender = some w)
    (hsealed : isCorrupted (packetOperand s) = false) (hslot : fieldSlot s.cfg (packetOperand s).acknum = some k)
    (hwin : ringDist s.cfg k w.base < s.cfg.W) (hvalid : flagGet w.valid k = true) (hacked : flagGet w.acked k = false) :
    execAOnack s = .next (respond
      { s with
        sender := some { (ackSlide s.cfg w k).1 with tseq := (ackTimer s.cfg s.aTrun (ackSlide s.cfg w k).1).tseq }
        aTrun := (ackTimer s.cfg s.aTrun (ackSlide s.cfg w k).1).running
        cntTotalAcksReceived := s.cntTotalAcksReceived + 1
        cntNewAcks := s.cntNewAcks + 1 }
      .ok (ackTimer s.cfg s.aTrun (ackSlide s.cfg w k).1).fr (BitVec.ofNat 32 (ackSlide s.cfg w k).2)
      (ackTimer s.cfg s.aTrun (ackSlide s.cfg w k).1).events) := by
  rcases execAOnack_cases s with ⟨hw', -⟩ | ⟨_, -, hc, -⟩ | ⟨w', hw', -, hstale, -⟩ | ⟨w', k', hw', -, hk', -, -, ha, -⟩ |
    ⟨w', k', hw', -, hk', -, -, -, hx⟩
  · cases hw.symm.trans hw'
  · cases hsealed.symm.trans hc
  · cases hw.symm.trans hw'
    rcases hstale with hnone | ⟨k', hk', hout⟩
    · cases hslot.symm.trans hnone
    · cases hslot.symm.trans hk'
      rcases hout with hout | hinvalid
      · omega
      · cases hvalid.symm.trans hinvalid
  · cases hw.symm.trans hw'
    cases hslot.symm.trans hk'
    cases hacked.symm.trans ha
  · cases hw.symm.trans hw'
    cases hslot.symm.trans hk'
    exact hx

/-- Setting a slot's flag adds that slot to those flagged. -/
theorem flagGet_mark {l : List Bool} {k : Nat} (hk : k < l.length) (j : Nat) :
    flagGet (flagSet l k true) j = (decide (j = k) || flagGet l j) := by
  rw [flagGet_flagSet _ _ hk]
  by_cases hj : j = k <;> simp [hj]

/-! ### A packet inside the window -/

/-- The outcome of `B_ONPACKET` for an uncorrupted packet inside the window: the drain, from the window in which the packet's
slot is received, with the packet stored if it is the first copy (R133). -/
theorem execBOnpacket_inWindow {s : State} {r : Receiver} {q : Nat} (hr : s.receiver = some r)
    (hsealed : isCorrupted (packetOperand s) = false) (hslot : fieldSlot s.cfg (packetOperand s).seqnum = some q)
    (hwin : ringDist s.cfg q r.base < s.cfg.W) (hq : q < r.rcvd.length) :
    ∃ r' : Receiver, r'.base = r.base ∧ r'.rcvd.length = r.rcvd.length ∧
      r'.pkts = (if flagGet r.rcvd q then r.pkts else slotWrite r.pkts q (packetOperand s)) ∧
      (∀ j, flagGet r'.rcvd j = (decide (j = q) || flagGet r.rcvd j)) ∧
      execBOnpacket s = .next (drained s r' (if flagGet r.rcvd q then .dupPkt else .ok)) := by
  rcases execBOnpacket_cases s with ⟨hr', -⟩ | ⟨_, -, hc, -⟩ | ⟨r', hr', -, hout, -⟩ | ⟨r', q', hr', -, hq', -, hdup, hx⟩ |
    ⟨r', q', hr', -, hq', -, hfirst, hx⟩
  · cases hr.symm.trans hr'
  · cases hsealed.symm.trans hc
  · cases hr.symm.trans hr'
    rcases hout with hnone | ⟨q', hq', hout⟩
    · cases hslot.symm.trans hnone
    · cases hslot.symm.trans hq'
      omega
  · cases hr.symm.trans hr'
    cases hslot.symm.trans hq'
    refine ⟨r, rfl, rfl, by rw [if_pos hdup], fun j => ?_, by rwa [if_pos hdup]⟩
    by_cases hj : j = q <;> simp [hj, hdup]
  · cases hr.symm.trans hr'
    cases hslot.symm.trans hq'
    refine ⟨bufferPacket r q (packetOperand s), rfl, length_flagSet _ _ _, ?_, flagGet_mark hq, ?_⟩
    · rw [hfirst]; rfl
    · rwa [hfirst]

end Sys2Proof.Machine

/-- Settles O32: the slide's own account of what it retires, after the marking of slot `k`. -/
theorem newAckIsAccepted : Obligations.NewAckIsAccepted := by
  intro s w k hw hbase hvlen halen hsum hnum hk hwin hvalid hacked
  have hx := execAOnack_new hw (isCorrupted_eq_false.2 hsum) (fieldSlot_eq_some.2 ⟨hnum, hk⟩) hwin hvalid hacked
  have hmark := flagGet_mark (halen ▸ hk : k < w.acked.length)
  obtain ⟨hn, hvbase, hvnext, hvtseq, hvvlen, hvalen, hvvalid, hvacked, hvpkts, hretired, -, -⟩ :=
    slide_spec s.cfg s.cfg.S { w with acked := flagSet w.acked k true } hbase le_rfl
  have hexit := slide_exit s.cfg { w with acked := flagSet w.acked k true } hbase
  rw [ackSlide] at hx
  generalize slide s.cfg s.cfg.S { w with acked := flagSet w.acked k true } = res at *
  obtain ⟨v, n⟩ := res
  dsimp only at *
  simp only [ackTimer_fr, ackTimer_running, ackTimer_tseq, ackTimer_events, respond_if, hvnext, hvtseq] at hx
  -- A slot of the run that is not `k` was acknowledged before.
  have hrun : ∀ i < n, flagGet w.valid ((w.base + i) % s.cfg.S) = true ∧
      ((w.base + i) % s.cfg.S = k ∨ flagGet w.acked ((w.base + i) % s.cfg.S) = true) := fun i hi => by
    have hret := hretired _ ((inRun_iff_offset hbase hn).2 ⟨i, hi, rfl⟩)
    simpa [isRetirable, hmark, ringOffset] using hret
  refine ⟨n, { v with next := w.next, tseq := if v.base = w.next then w.tseq else v.base }, hn, hvbase, rfl,
    hvvlen.trans hvlen, ?_, hrun, ?_, hvvalid, fun j => ?_, hvpkts, rfl, hx⟩
  · exact hvalen.trans ((length_flagSet _ _ _).trans halen)
  · simpa [isRetirable] using hexit
  · rw [hvacked, hmark]

/-- Settles O39: the drain's own account of what it delivers, from the window with the first copy stored. -/
theorem inWindowPacketIsDrained : Obligations.InWindowPacketIsDrained := by
  intro s r q hr hbase hlen hsum hnum hq hwin dup store
  have hqlen : q < r.rcvd.length := hlen ▸ hq
  -- The window that the drain starts from, whether or not the packet is a second copy.
  obtain ⟨r', hbase', hlen', hpkts', hrcvd', hx⟩ := execBOnpacket_inWindow hr (isCorrupted_eq_false.2 hsum)
    (fieldSlot_eq_some.2 ⟨hnum, hq⟩) hwin hqlen
  have hb : r'.base < s.cfg.S := hbase'.symm ▸ hbase
  obtain ⟨hd, hvbase, hvlen, hvrcvd, hvpkts, hpassed, -, -, hpayloads⟩ := drain_spec s s.cfg.S r' hb le_rfl
  have hexit := drain_exit s r' hb
  rw [drained, respond_no_fault, ackEvent, hpayloads] at hx
  generalize (drain s s.cfg.S r').1 = v at *
  generalize (drain s s.cfg.S r').2.length = d at *
  rw [hbase'] at hvbase
  rw [hbase', hpkts'] at hx
  refine ⟨d, v, hd, hvbase, hvlen.trans (hlen'.trans hlen), fun i hi => ?_, hexit, fun j => ?_, fun j => ?_, ?_⟩
  · have hpass := hpassed _ ((inRun_iff_offset hb hd).2 ⟨i, hi, rfl⟩)
    simpa [hrcvd', hbase', ringOffset] using hpass
  · rw [hvrcvd, hrcvd', hbase']
  · rw [hvpkts, hbase', hpkts']
  · rw [List.length_map, List.length_range, List.map_map] at hx
    exact hx
end

section
/-!
PROOFS. The command word (R71 to R76): `decode` answers the command of the one row that accepts the word, `encode` undoes it, and
the words that no row accepts are the illegal ones.
-/

open Sys2Proof Sys2Proof.Machine

namespace Sys2Proof

/-! ### The rows of the command set (R74) -/

/-- The row takes the word: the opcode is the row's, and a field for which the format has no operand is 0 (R72, R75). -/
def OpcodeRow.Accepts (r : OpcodeRow) (cmd : Word) : Prop :=
  fieldOp cmd = r.op ∧ (r.format = .n → fieldA cmd = 0) ∧ (r.format = .n ∨ r.format = .a → fieldB cmd = 0)

theorem accepts_iff_masked {r : OpcodeRow} {cmd : Word} : r.Accepts cmd ↔ cmd &&& formatMask r.format = rowMatch r :=
  (masked_eq_iff cmd r.format r.op).symm

/-- No two rows have the same opcode, so the search for a row's opcode finds that row. -/
theorem find?_opcode {r : OpcodeRow} (hr : r ∈ opcodeRows) : opcodeRows.find? (fun q => q.op == r.op) = some r := by
  fin_cases hr <;> rfl

/-- Every command has a row, which builds it from its own operands. -/
theorem exists_row_of_instr (i : Instr) :
    ∃ r ∈ opcodeRows, i.opcode = r.op ∧ (r.format = .n → i.operandA = 0) ∧
      (r.format = .n ∨ r.format = .a → i.operandB = 0) ∧ r.build i.operandA i.operandB = i := by
  cases i <;> simp [opcodeRows, Instr.opcode, Instr.operandA, Instr.operandB]

/-- What a row builds from fields that its format allows has the row's opcode and these operands, and is well formed. -/
theorem build_fields {r : OpcodeRow} (hr : r ∈ opcodeRows) {a b : Nat} (ha : r.format = .n → a = 0)
    (hb : r.format = .n ∨ r.format = .a → b = 0) (hlt : a < 4096 ∧ b < 4096) :
    (r.build a b).opcode = r.op ∧ (r.build a b).operandA = a ∧ (r.build a b).operandB = b ∧ (r.build a b).wf = true := by
  fin_cases hr <;> simp_all [Instr.opcode, Instr.operandA, Instr.operandB, Instr.wf, fits12_iff]

/-! ### The decoder (R75) -/

/-- The decoding procedure without its search: a word is the command that a row accepting it builds. -/
theorem decode_eq_ok_iff {cmd : Word} {i : Instr} :
    decode cmd = .ok i ↔ ∃ r ∈ opcodeRows, r.Accepts cmd ∧ r.build (fieldA cmd) (fieldB cmd) = i := by
  constructor
  · intro h
    unfold decode at h
    split at h
    · cases h
    · next r hfind =>
      split at h
      · next hmask =>
        cases h
        exact ⟨r, List.mem_of_find?_eq_some hfind, accepts_iff_masked.2 hmask, rfl⟩
      · cases h
  · rintro ⟨r, hr, hacc, rfl⟩
    rw [decode, hacc.1, find?_opcode hr]
    exact if_pos (accepts_iff_masked.1 hacc)

/-! ### Illegal words (R75) -/

/-- A word with a row's opcode is legal exactly when that row accepts it. -/
theorem isIllegalWord_eq_false_iff_accepts {r : OpcodeRow} (hr : r ∈ opcodeRows) {cmd : Word} (hop : fieldOp cmd = r.op) :
    isIllegalWord cmd = false ↔ r.Accepts cmd := by
  have habove : cmd.extractLsb' 8 24 = 0#24 ↔ fieldA cmd = 0 ∧ fieldB cmd = 0 := by
    have hcmd := cmd.isLt
    simp only [fieldA, fieldB, ← BitVec.toNat_inj, BitVec.extractLsb'_toNat, BitVec.toNat_zero, Nat.shiftRight_eq_div_pow]
    omega
  have hb : cmd.extractLsb' 20 12 = 0#12 ↔ fieldB cmd = 0 := by rw [fieldB, ← BitVec.toNat_inj, BitVec.toNat_zero]
  rw [isIllegalWord, OpcodeRow.Accepts, hop, show cmd.extractLsb' 0 8 = r.op from hop]
  fin_cases hr <;> simp [habove, hb]

/-- The opcode of a legal word is one of the fifteen. -/
theorem exists_row_of_legal {cmd : Word} (h : isIllegalWord cmd = false) : ∃ r ∈ opcodeRows, fieldOp cmd = r.op := by
  simp only [isIllegalWord, Bool.or_eq_false_iff, Bool.not_eq_false'] at h
  obtain ⟨⟨hop, -⟩, -⟩ := h
  have hmem : (fieldOp cmd).toNat ∈ opcodeRows.map (fun r => r.op.toNat) := List.contains_iff_mem.1 hop
  obtain ⟨r, hr, heq⟩ := List.mem_map.1 hmem
  exact ⟨r, hr, BitVec.eq_of_toNat_eq heq.symm⟩

/-- A legal word decodes to what its opcode's row builds. -/
theorem decode_of_legal {cmd : Word} (h : isIllegalWord cmd = false) {r : OpcodeRow} (hr : r ∈ opcodeRows)
    (hop : fieldOp cmd = r.op) : decode cmd = .ok (r.build (fieldA cmd) (fieldB cmd)) :=
  decode_eq_ok_iff.2 ⟨r, hr, (isIllegalWord_eq_false_iff_accepts hr hop).1 h, rfl⟩

/-- A word that decodes is legal: the row that built the command accepts the word. -/
theorem legal_of_decode {cmd : Word} {i : Instr} (h : decode cmd = .ok i) : isIllegalWord cmd = false := by
  obtain ⟨r, hr, hacc, -⟩ := decode_eq_ok_iff.1 h
  exact (isIllegalWord_eq_false_iff_accepts hr hacc.1).2 hacc

theorem decode_of_illegal {cmd : Word} (h : isIllegalWord cmd = true) : ∃ reason, decode cmd = .error reason := by
  cases hdec : decode cmd with
  | error reason => exact ⟨reason, rfl⟩
  | ok i => cases h.symm.trans (legal_of_decode hdec)

end Sys2Proof

/-- Settles O1: the three fields of the word read back, so the command's own row accepts it and builds the command again. -/
theorem decodeOfEncodeIsTheCommand : Obligations.DecodeOfEncodeIsTheCommand := by
  intro i hwf
  obtain ⟨hop, ha, hb⟩ := Laws.EncodedFields.of_operands_lt i hwf
  obtain ⟨r, hr, hrow, hformatA, hformatB, hbuild⟩ := exists_row_of_instr i
  refine decode_eq_ok_iff.2 ⟨r, hr, ⟨hop.trans hrow, ?_, ?_⟩, ?_⟩
  · rwa [ha]
  · rwa [hb]
  · rwa [ha, hb]

/-- Settles O2: the command that a row builds has the word's own three fields, and a word is its fields. -/
theorem encodeOfDecodeIsTheWord : Obligations.EncodeOfDecodeIsTheWord := by
  intro cmd i h
  obtain ⟨r, hr, ⟨hrow, hformatA, hformatB⟩, rfl⟩ := decode_eq_ok_iff.1 h
  obtain ⟨hop, ha, hb, hwf⟩ := build_fields hr hformatA hformatB ⟨fieldA_lt cmd, fieldB_lt cmd⟩
  refine ⟨hwf, ?_⟩
  rw [encode, hop, ha, hb, ← hrow, packCommand_fields]

/-- Settles O3: the fifteen clauses are the fifteen rows. -/
theorem decodingProcedure : Obligations.DecodingProcedure := by
  intro cmd op a b
  refine ⟨decode_of_illegal, fun hlegal => ?_⟩
  have hrows : ∀ r ∈ opcodeRows, op = r.op → decode cmd = .ok (r.build a b) := fun r => decode_of_legal hlegal
  simp only [opcodeRows, List.forall_mem_cons, List.not_mem_nil, false_implies, implies_true, and_true] at hrows
  exact hrows

/-- Settles O4: each of the ten words is the word of a well-formed command. -/
theorem wordsOfTheSpecDecode : Obligations.WordsOfTheSpecDecode := by
  have hword : ∀ (i : Instr) (cmd : Word), i.wf = true → encode i = cmd → decode cmd = .ok i := fun i cmd hwf hcmd =>
    hcmd ▸ decodeOfEncodeIsTheCommand i hwf
  and_intros <;> exact hword _ _ rfl rfl
end

section
/-!
PROOFS. What crosses the core's ports: a word that is no command (R76), an image that a program line gives (R83, R84), the
response (R79, R80) and the events (R81, R82).
-/

open Sys2Proof Sys2Proof.Machine

namespace Sys2Proof.Machine

/-! ### The image of a program line -/

/-- A sampled image that holds the bytes of a packet gives that packet as the operand: no byte of it is unwritten. -/
theorem packetOperand_of_ibuf {s : State} {p : Packet} (hibuf : s.ibuf = Memory.ofBytes (pktPack p))
    (hlen : p.payload.length = s.cfg.P) : packetOperand s = p := by
  have hbyte : ∀ k < 12 + s.cfg.P, ibufByte s k = bytesImage (pktPack p) k := fun k hk => by
    have hin : k < (pktPack p).length := by rw [length_pktPack, hlen]; exact hk
    rw [ibufByte, hibuf, Memory_read_ofBytes, bytesImage, List.getElem?_eq_getElem hin, List.getD_eq_getElem _ _ hin,
      Option.getD_some]
  rw [packetOperand, pktUnpack_congr hbyte, ← hlen, pktUnpack_pktPack]

/-- With the checksum `auto`, the image holds the bytes of `MakePacket`'s packet (R83, R102). -/
theorem lineImage_pkt_auto {c : Config} {payload : PayloadForm} {bytes : List Byte} (h : payloadBytes c payload = .ok bytes)
    (seq ack : Int) : lineImage c (.pkt seq ack payload .auto) = .ok (Memory.ofBytes (pktPack (makePacket seq ack bytes))) := by
  simp only [lineImage, h]
  rfl

/-- A well-formed command and a legal image make a line (R83, R84). -/
theorem assembleLine_of_wf {c : Config} {line : ProgramLine} {image : Memory} (hwf : line.command.wf = true)
    (himage : lineImage c line.image = .ok image) : assembleLine c line = .ok (.command (encode line.command) image) := by
  simp only [assembleLine, hwf, himage, if_true]

/-- `CHK` of a packet that is not corrupted answers `(OK, 0, 0)` and changes nothing (R105). -/
theorem exec_chk_of_sealed {s : State} (h : isCorrupted (packetOperand s) = false) :
    exec .chk s = .next { s with resp := some ⟨.ok, 0, 0⟩, events := [] } := by
  rw [exec_chk, h]
  rfl

/-! ### The events of a command (R81) -/

theorem execAInit_events {s t : State} (h : execAInit s = .next t) : t.events = [] := by
  rcases execAInit_cases s with ⟨_, _, hx⟩ | ⟨_, hx⟩ <;> cases hx.symm.trans h <;> rfl

theorem execBInit_events {s t : State} (h : execBInit s = .next t) : t.events = [] := by
  rcases execBInit_cases s with ⟨_, _, hx⟩ | ⟨_, hx⟩ <;> cases hx.symm.trans h <;> rfl

/-- `A_OUTPUT` sends one packet and may start the timer (R116). -/
theorem execAOutput_events {s t : State} {e : Event} (h : execAOutput s = .next t) (he : e ∈ t.events) :
    (∃ p, e = .send .A p) ∨ e = .tStart .A s.cfg.rtt := by
  rcases execAOutput_cases s with ⟨_, hx⟩ | ⟨w, _, _, hx⟩ | ⟨_, _, _, hx⟩ <;> cases hx.symm.trans h
  · cases he
  · rw [respond_events, outputTimer_events, List.mem_cons] at he
    rcases he with rfl | he
    · exact .inl ⟨_, rfl⟩
    · split at he
      · exact .inr (List.mem_singleton.1 he)
      · cases he
  · cases he

/-- `A_ONACK` only stops or starts the timer (R119). -/
theorem execAOnack_events {s t : State} {e : Event} (h : execAOnack s = .next t) (he : e ∈ t.events) :
    e = .tStart .A s.cfg.rtt ∨ e = .tStop .A := by
  rcases execAOnack_cases s with ⟨_, hx⟩ | ⟨_, _, _, hx⟩ | ⟨_, _, _, _, hx⟩ | ⟨_, _, _, _, _, _, _, _, hx⟩ |
    ⟨w, k, _, _, _, _, _, _, hx⟩ <;> cases hx.symm.trans h
  case inr.inr.inr.inr =>
    rw [respond_events, ackTimer_events, List.mem_append] at he
    rcases he with he | he <;> split at he
    · exact .inr (List.mem_singleton.1 he)
    · cases he
    · cases he
    · exact .inl (List.mem_singleton.1 he)
  all_goals cases he

/-- `A_ONTIMEOUT` sends stored packets and starts the timer (R122). -/
theorem execAOntimeout_events {s t : State} {e : Event} (h : execAOntimeout s = .next t) (he : e ∈ t.events) :
    (∃ p, e = .send .A p) ∨ e = .tStart .A s.cfg.rtt := by
  rcases execAOntimeout_cases s with ⟨_, hx⟩ | ⟨w, _, hx⟩ <;> cases hx.symm.trans h
  · cases he
  · rw [respond_events, List.mem_append] at he
    rcases he with he | he
    · obtain ⟨k, -, rfl⟩ := List.mem_map.1 he
      exact .inl ⟨_, rfl⟩
    · exact .inr (List.mem_singleton.1 he)

/-- The window branch of `B_ONPACKET` delivers payloads and sends one acknowledgment (R133, R134). -/
theorem drained_events {s : State} {r : Receiver} {st : Status} {e : Event} (he : e ∈ (drained s r st).events) :
    (∃ p, e = .send .B p) ∨ ∃ payload, e = .deliver .B payload := by
  rw [drained, respond_events, List.mem_append] at he
  rcases he with he | he
  · obtain ⟨payload, -, rfl⟩ := List.mem_map.1 he
    exact .inr ⟨payload, rfl⟩
  · exact .inl ⟨_, List.mem_singleton.1 he⟩

/-- `B_ONPACKET` sends acknowledgments and delivers payloads (R133). -/
theorem execBOnpacket_events {s t : State} {e : Event} (h : execBOnpacket s = .next t) (he : e ∈ t.events) :
    (∃ p, e = .send .B p) ∨ ∃ payload, e = .deliver .B payload := by
  rcases execBOnpacket_cases s with ⟨_, hx⟩ | ⟨r, _, _, hx⟩ | ⟨r, _, _, _, hx⟩ | ⟨r, _, _, _, _, _, _, hx⟩ |
    ⟨r, q, _, _, _, _, _, hx⟩ <;> cases hx.symm.trans h
  · cases he
  · exact .inl ⟨_, List.mem_singleton.1 he⟩
  · exact .inl ⟨_, List.mem_singleton.1 he⟩
  · exact drained_events he
  · exact drained_events he

/-! ### The packed response (R79) -/

/-- `RESP_STATUS` as a number: the status in the low byte and `fr` above it. -/
theorem respStatusWord_toNat (r : Response) :
    (respStatusWord r).toNat = r.fr.toNat * 2 ^ 8 + (statusCode r.status).toNat := by
  have hfr := r.fr.isLt
  have hst := (statusCode r.status).isLt
  rw [respStatusWord, BitVec.toNat_setWidth, BitVec.toNat_append, ← Nat.shiftLeft_add_eq_or_of_lt hst, Nat.shiftLeft_eq]
  omega

end Sys2Proof.Machine

/-- Settles O6: an illegal word does not decode, and the step refuses it with `ILLCMD`, whose mask is bit 0. -/
theorem illegalWordIsRefused : Obligations.IllegalWordIsRefused := by
  intro s cmd image rest hin hillegal
  obtain ⟨reason, hdec⟩ := decode_of_illegal hillegal
  rcases step_cases s with ⟨hin', -⟩ | ⟨_, hin', -⟩ | ⟨_, _, _, _, hin', -, hx⟩ | ⟨_, _, _, _, hin', hdec', -⟩ <;>
    cases hin.symm.trans hin'
  · exact hx
  · cases hdec.symm.trans hdec'

/-- Settles O25: the line's image reads back as `MakePacket`'s packet, which is sealed, and `CHK` finds it so. -/
theorem autoChecksumIsSealed : Obligations.AutoChecksumIsSealed := by
  intro s seq ack payload bytes rest hbytes
  have himage := lineImage_pkt_auto hbytes seq ack
  have hlen : (makePacket seq ack bytes).payload.length = s.cfg.P := payloadBytes_length hbytes
  refine ⟨_, himage, assembleLine_of_wf rfl himage, packetOperand_of_ibuf rfl hlen, ?_⟩
  rw [stepExecutesTheDecodedCommand _ _ _ _ _ rfl (decodeOfEncodeIsTheCommand .chk rfl)]
  refine exec_chk_of_sealed (.trans (congrArg isCorrupted ?_) (isCorrupted_makePacket seq ack bytes))
  exact packetOperand_of_ibuf rfl hlen

/-- Settles O51: the events of each command that emits any; the read-only commands and the two `INIT`s emit none. -/
theorem eventsOfEachCommand : Obligations.EventsOfEachCommand := by
  intro i s t e h he
  cases i
  case aInit => rw [execAInit_events h] at he; cases he
  case bInit => rw [execBInit_events h] at he; cases he
  case aOutput =>
    rcases execAOutput_events h he with hsend | hstart
    · exact .inl (hsend.imp fun _ hp => ⟨hp, .inl rfl⟩)
    · exact .inr (.inr (.inr (.inl ⟨hstart, .inl rfl⟩)))
  case aOnack =>
    rcases execAOnack_events h he with hstart | hstop
    · exact .inr (.inr (.inr (.inl ⟨hstart, .inr (.inl rfl)⟩)))
    · exact .inr (.inr (.inr (.inr ⟨hstop, rfl⟩)))
  case aOntimeout =>
    rcases execAOntimeout_events h he with hsend | hstart
    · exact .inl (hsend.imp fun _ hp => ⟨hp, .inr rfl⟩)
    · exact .inr (.inr (.inr (.inl ⟨hstart, .inr (.inr rfl)⟩)))
  case bOnpacket =>
    rcases execBOnpacket_events h he with hsend | hdeliver
    · exact .inr (.inl (hsend.imp fun _ hp => ⟨hp, rfl⟩))
    · exact .inr (.inr (.inl (hdeliver.imp fun _ hp => ⟨hp, rfl⟩)))
  all_goals
    obtain ⟨_, _, _, rfl⟩ := eq_respond_of_readOnly h rfl
    cases he

/-- Settles O46: the fields of `RESP_STATUS` do not overlap; the codes are the table of R80. -/
theorem responsePacking : Obligations.ResponsePacking := by
  refine ⟨fun r => ?_, rfl, rfl, rfl, rfl, rfl, rfl, rfl, rfl⟩
  have hfr := r.fr.isLt
  have hst := (statusCode r.status).isLt
  simp only [← BitVec.toNat_inj, BitVec.extractLsb'_toNat, respStatusWord_toNat, Nat.shiftRight_eq_div_pow]
  refine ⟨by omega, by omega, (?_ : _ = 0)⟩
  omega

/-- Settles O52: the header is the side bit above the two bits of the kind, whatever the body. -/
theorem eventByteForm : Obligations.EventByteForm := by
  intro p payload d
  simp [eventBytes, eventHeader, eventSide, sideBit, eventKind, eventBody]
end

section
/-!
PROOFS. RINGCMP: the laws of the ring, what each ring command answers for sequence numbers and for other operands, and the
packets behind the receive window.
-/

open Sys2Proof Sys2Proof.Machine

namespace Sys2Proof.Machine

/-! ### The ring functions and arithmetic mod `S` (R90, R96) -/

theorem ringDist_eq_mod (c : Config) (x : Nat) {y : Nat} (hy : y < c.S) : ringDist c x y = (x + c.S - y) % c.S := by
  have hsum : (x : Int) - y + c.S = (x + c.S - y : Nat) := by omega
  rw [ringDist, hsum, ← Int.natCast_emod, Int.toNat_natCast]

/-- As an integer, the number before is the remainder of the difference. -/
theorem ringDec_cast (c : Config) (x : Nat) : (ringDec c x : Int) = ((x : Int) - 1) % (c.S : Int) := by
  have hS := Config_S_pos c
  rw [ringDec, Int.add_emod_right, Int.toNat_of_nonneg (Int.emod_nonneg _ (by omega))]

theorem ringDist_self (c : Config) (x : Nat) : ringDist c x x = 0 := by simp [ringDist]

/-- The way from `y` to `x` and the way back are once around the ring (R96 item 1). -/
theorem ringDist_add_swap {c : Config} {x y : Nat} (hx : x < c.S) (hy : y < c.S) (hne : x ≠ y) :
    ringDist c x y + ringDist c y x = c.S := by
  rw [ringDist_eq hx hy, ringDist_eq hy hx]
  split <;> split <;> omega

/-- One step forward at the far end lengthens the distance (R96 item 2). -/
theorem ringDist_ringInc_left {c : Config} {x y : Nat} (hx : x < c.S) (hy : y < c.S) :
    ringDist c (ringInc c x) y = ringInc c (ringDist c x y) := by
  rw [ringInc_eq (ringDist_lt c x y), ringDist_eq (ringInc_lt c x) hy, ringDist_eq hx hy, ringInc_eq hx]
  split <;> split <;> split <;> split <;> omega

/-- One step forward at the near end shortens the distance (R96 item 3). -/
theorem ringDist_ringInc_right {c : Config} {x y : Nat} (hx : x < c.S) (hy : y < c.S) :
    ringDist c x (ringInc c y) = ringDec c (ringDist c x y) := by
  rw [ringDec_eq (ringDist_lt c x y), ringDist_eq hx (ringInc_lt c y), ringDist_eq hx hy, ringInc_eq hy]
  split <;> split <;> split <;> split <;> omega

theorem ringDec_ringInc {c : Config} {x : Nat} (hx : x < c.S) : ringDec c (ringInc c x) = x := by
  rw [ringDec_eq (ringInc_lt c x), ringInc_eq hx]
  split <;> split <;> omega

theorem ringInc_ringDec {c : Config} {x : Nat} (hx : x < c.S) : ringInc c (ringDec c x) = x := by
  rw [ringInc_eq (ringDec_lt hx), ringDec_eq hx]
  split <;> split <;> omega

/-- Distances add up along the ring (R96 item 5). -/
theorem ringDist_add {c : Config} {x y z : Nat} (hx : x < c.S) (hy : y < c.S) (hz : z < c.S) :
    ringDist c x z = (ringDist c x y + ringDist c y z) % c.S := by
  have hxy := ringDist_lt c x y
  have hyz := ringDist_lt c y z
  rw [mod_S_eq (by omega), ringDist_eq hx hz, ringDist_eq hx hy, ringDist_eq hy hz]
  split <;> split <;> split <;> split <;> omega

/-- `n` steps forward are an offset of `n`. -/
theorem iterate_ringInc {c : Config} {x : Nat} (hx : x < c.S) (n : Nat) : (ringInc c)^[n] x = ringOffset c x n := by
  induction n generalizing x with
  | zero => exact (ringOffset_zero hx).symm
  | succ n ih => rw [Function.iterate_succ_apply, ih (ringInc_lt c x), ringOffset_ringInc]

theorem ringOffset_S {c : Config} {x : Nat} (hx : x < c.S) : ringOffset c x c.S = x := by
  rw [ringOffset, Nat.add_mod_right, Nat.mod_eq_of_lt hx]

/-- On sequence numbers the window is the run of `W` slots from its base. -/
theorem inWindow_eq_inRun {c : Config} {x : Nat} (b : Nat) (hx : x < c.S) : inWindow c x b = inRun c b c.W x := by
  simp [inWindow, inRun, hx]

/-- The window's numbers, listed (R90). -/
theorem inWindow_iff_offset {c : Config} {x b : Nat} (hx : x < c.S) (hb : b < c.S) :
    inWindow c x b = true ↔ ∃ i < c.W, x = (b + i) % c.S := by
  rw [inWindow_eq_inRun b hx]
  exact inRun_iff_offset hb (Config_W_lt_S c).le

/-- A window has `W` numbers (R96 item 7). -/
theorem length_filter_inWindow {c : Config} {b : Nat} (hb : b < c.S) :
    ((List.range c.S).filter (fun k => inWindow c k b)).length = c.W := by
  rw [List.filter_congr fun k hk => inWindow_eq_inRun b (List.mem_range.1 hk)]
  exact length_filter_inRun hb (Config_W_lt_S c).le

/-- The `W` numbers behind a base are outside its window, since `S >= 2W` (R98). -/
theorem behind_not_inWindow {c : Config} {b q : Nat} (hb : b < c.S) (hq : q < c.S) (hpos : 1 ≤ ringDist c b q)
    (hle : ringDist c b q ≤ c.W) : c.W ≤ ringDist c q b := by
  have hne : b ≠ q := by
    rintro rfl
    rw [ringDist_self] at hpos
    omega
  have hround := ringDist_add_swap hb hq hne
  have hlegal := c.two_W_le_S
  omega

/-! ### The ring commands (R91 to R95) -/

theorem exec_rdist {s : State} {x y : Nat} (hx : x < s.cfg.S) (hy : y < s.cfg.S) :
    exec (.rdist x y) s =
      .next { s with resp := some ⟨.ok, 0, BitVec.ofNat 32 (ringDist s.cfg x y)⟩, events := [] } := by
  rw [exec, execRdist, if_pos (by simp [hx, hy]), complete_nat, respond_no_fault]

theorem exec_rinc {s : State} {x : Nat} (hx : x < s.cfg.S) :
    exec (.rinc x) s = .next { s with resp := some ⟨.ok, 0, BitVec.ofNat 32 (ringInc s.cfg x)⟩, events := [] } := by
  rw [exec, execRinc, if_pos (isSeqnum_iff.2 hx), complete_nat, respond_no_fault]

theorem exec_rdec {s : State} {x : Nat} (hx : x < s.cfg.S) :
    exec (.rdec x) s = .next { s with resp := some ⟨.ok, 0, BitVec.ofNat 32 (ringDec s.cfg x)⟩, events := [] } := by
  rw [exec, execRdec, if_pos (isSeqnum_iff.2 hx), complete_nat, respond_no_fault]

theorem exec_rinwin {s : State} {x base : Nat} (hx : x < s.cfg.S) (hb : base < s.cfg.S) :
    exec (.rinwin x base) s =
      .next { s with resp := some ⟨.ok, 0, wrap32 (if inWindow s.cfg x base then 1 else 0)⟩, events := [] } := by
  rw [exec, execRinwin, if_pos (by simp [hx, hb]), complete_eq, respond_no_fault]

/-- The check of two operands fails when one of them is no sequence number. -/
theorem not_isSeqnum_both {c : Config} {x y : Nat} (h : c.S ≤ x ∨ c.S ≤ y) :
    ¬ (isSeqnum c x && isSeqnum c y) = true := by
  rw [Bool.and_eq_true, isSeqnum_iff, isSeqnum_iff]
  omega

/-- A ring command whose operand is no sequence number is refused (R91). -/
theorem exec_ring_badarg {s : State} {i : Instr} {x y : Nat}
    (h : ((i = .rdist x y ∨ i = .rinwin x y) ∧ (s.cfg.S ≤ x ∨ s.cfg.S ≤ y)) ∨
      ((i = .rinc x ∨ i = .rdec x) ∧ s.cfg.S ≤ x)) :
    exec i s = raiseFault .badarg s := by
  rcases h with ⟨rfl | rfl, hout⟩ | ⟨rfl | rfl, hout⟩
  · exact if_neg (not_isSeqnum_both hout)
  · exact if_neg (not_isSeqnum_both hout)
  · exact if_neg (mt isSeqnum_iff.1 hout.not_gt)
  · exact if_neg (mt isSeqnum_iff.1 hout.not_gt)

/-! ### A bit of `FAULT` that a command cannot raise -/

/-- The response flags no bit of a mask that none of the command's faults meets (R151). -/
theorem exec_fr_getLsbD_eq_false {i : Instr} {s t : State} {r : Response} (h : exec i s = .next t) (hr : t.resp = some r)
    {m : BitVec 9} (hm : ∀ f ∈ abortingFaults i ++ timerFaults i, faultMask f &&& m = 0) {k : Nat}
    (hk : m.getLsbD k = true) : r.fr.getLsbD k = false := by
  obtain ⟨r', hr', -, hfr⟩ := exec_response h
  cases hr.symm.trans hr'
  rcases hfr with hfr | ⟨f, hf, hfr⟩
  · rw [hfr]
    exact BitVec.getLsbD_zero
  · have hbit := congrArg (fun v => v.getLsbD k) (hm f hf)
    simpa [hfr, hk] using hbit

/-! ### A packet outside the receive window -/

/-- An uncorrupted packet outside the window is counted and acknowledged, not buffered (R133). -/
theorem execBOnpacket_outside {s : State} {r : Receiver} {q : Nat} (hr : s.receiver = some r)
    (hclean : isCorrupted (packetOperand s) = false) (hslot : fieldSlot s.cfg (packetOperand s).seqnum = some q)
    (hout : s.cfg.W ≤ ringDist s.cfg q r.base) :
    execBOnpacket s = .next (respond { s with cntPacketsReceived := s.cntPacketsReceived + 1 } .outOfWindow 0 0
      [ackEvent s.cfg r.base]) := by
  have hnot : (!inWindow s.cfg q r.base) = true := by simpa [inWindow] using hout
  simp only [execBOnpacket, hr, hclean, hslot, hnot]
  rfl

end Sys2Proof.Machine

/-- Settles O17: each law by its lemma; an incremented argument lengthens or shortens the distance by one step mod `S`. -/
theorem ringLaws : Obligations.RingLaws := by
  intro c x y z hx hy hz
  refine ⟨ringDist_self c x, ringDist_add_swap hx hy, ringDist_ringInc_left hx hy, ?_, ringDec_ringInc hx,
    ringInc_ringDec hx, ringDist_add hx hy hz, ?_, length_filter_inWindow hx⟩
  · rw [ringDist_ringInc_right hx hy, ringDec_cast]
  · rw [iterate_ringInc hx, ringOffset_S hx]

/-- Settles O15: the window is the listed numbers. -/
theorem rinwinResult : Obligations.RinwinResult := by
  intro s x base hx hb
  rw [exec_rinwin hx hb]
  refine ⟨fun hin => ?_, fun hout => ?_⟩
  · rw [if_pos ((inWindow_iff_offset hx hb).2 hin), wrap32_one]
  · have hnot : ¬ inWindow s.cfg x base = true := fun h =>
      have ⟨i, hi, hxi⟩ := (inWindow_iff_offset hx hb).1 h
      hout i hi hxi
    rw [if_neg hnot, wrap32_zero]

/-- Settles O16: a ring command's check fails; `BADARG`, bit 1, is among the faults of neither entity's commands. -/
theorem ringOperandOutOfRange : Obligations.RingOperandOutOfRange := by
  refine ⟨fun s i x y h => exec_ring_badarg h, fun s t i r hi he hr => ?_⟩
  rcases hi with hi | hi
  · exact exec_fr_getLsbD_eq_false he hr (senderCommand_faults hi) (by decide)
  · exact exec_fr_getLsbD_eq_false he hr (receiverCommand_faults hi) (by decide)

/-- Settles O18: the packet's number is a slot outside the window, and the response flags no fault. -/
theorem deliveredPacketsAreOutOfWindow : Obligations.DeliveredPacketsAreOutOfWindow := by
  intro s r q hr hb hq hpos hle hclean hseq
  have hout := behind_not_inWindow hb hq hpos hle
  rw [exec, execBOnpacket_outside hr hclean (fieldSlot_eq_some.2 ⟨hseq, hq⟩) hout, respond_no_fault, ackEvent]

/-- Settles O12: the distance over the integers is the one over the natural numbers. -/
theorem rdistResult : Obligations.RdistResult := by
  intro s x y hx hy
  rw [exec_rdist hx hy, ringDist_eq_mod s.cfg x hy]

/-- Settles O13: `RingInc` wraps at the last number, `S - 1`. -/
theorem rincResult : Obligations.RincResult := by
  intro s x hx
  have hlast : x + 1 = s.cfg.S ↔ x = s.cfg.S - 1 := by omega
  rw [exec_rinc hx, ringInc_eq hx, if_congr hlast rfl rfl]

/-- Settles O14: `RingDec` wraps at 0. -/
theorem rdecResult : Obligations.RdecResult := by
  intro s x hx
  rw [exec_rdec hx, ringDec_eq hx]
end

section
/-!
PROOFS. CSUM's functions: what a change of a packet's fields does to `ComputeChecksum` and so to `IsCorrupted` (R101 to R103, R106).
-/

open Sys2Proof Sys2Proof.Machine

namespace Sys2Proof.Machine

/-! ### The payload sum over the integers and as a 32-bit word (R101) -/

/-- The payload sum over the integers. -/
theorem payloadSum_cast (l : List Byte) : (payloadSum l : Int) = (l.map (fun b => (b.toNat : Int))).sum := by
  rw [payloadSum, Nat.cast_list_sum, List.map_map]
  rfl

/-- Replacing one payload byte moves the 32-bit sum by the difference of the two bytes. -/
theorem ofNat_payloadSum_set (l : List Byte) (k : Nat) (h : k < l.length) (v : Byte) :
    BitVec.ofNat 32 (payloadSum (l.set k v)) =
      BitVec.ofNat 32 (payloadSum l) + (v.setWidth 32 - (l[k]).setWidth 32) := by
  have hsum := congrArg (BitVec.ofNat 32) (payloadSum_set l k h v)
  rw [BitVec.ofNat_add, BitVec.ofNat_add, BitVec.ofNat_toNat, BitVec.ofNat_toNat] at hsum
  rw [← add_sub_assoc]
  exact eq_sub_of_add_eq hsum

/-- Two bytes with the same 32-bit value are the same byte. -/
theorem byte_eq_of_setWidth_eq {v b : Byte} (h : v.setWidth 32 = b.setWidth 32) : v = b := by
  bv_omega

/-- A byte that holds at least `d` loses exactly `d`: the subtraction does not wrap. -/
theorem setWidth_byte_sub {b : Byte} {d : Nat} (h : d ≤ b.toNat) :
    (b - BitVec.ofNat 8 d).setWidth 32 = b.setWidth 32 - BitVec.ofNat 32 d := by
  bv_omega

/-! ### A packet with the checksum of a sealed one (R103) -/

/-- A packet that keeps a sealed packet's checksum field is corrupted when its sum is another one. -/
theorem isCorrupted_eq_true_of_sealed {p q : Packet} (hp : isCorrupted p = false) (hfield : q.checksum = p.checksum)
    (hsum : computeChecksum q ≠ computeChecksum p) : isCorrupted q = true := by
  rw [isCorrupted_eq_true, hfield, isCorrupted_eq_false.1 hp]
  exact hsum.symm

/-- A packet that keeps a sealed packet's checksum field is sealed when its sum is the same. -/
theorem isCorrupted_eq_false_of_sealed {p q : Packet} (hp : isCorrupted p = false) (hfield : q.checksum = p.checksum)
    (hsum : computeChecksum q = computeChecksum p) : isCorrupted q = false := by
  rw [isCorrupted_eq_false, hfield, isCorrupted_eq_false.1 hp, hsum]

/-! ### What a changed field does to the checksum (R106) -/

theorem computeChecksum_seqnum_iff {p : Packet} {v : Word} :
    computeChecksum { p with seqnum := v } = computeChecksum p ↔ v = p.seqnum := by
  rw [computeChecksum_eq, computeChecksum_eq, add_left_inj, add_left_inj]

theorem computeChecksum_acknum_iff {p : Packet} {v : Word} :
    computeChecksum { p with acknum := v } = computeChecksum p ↔ v = p.acknum := by
  rw [computeChecksum_eq, computeChecksum_eq, add_left_inj, add_right_inj]

/-- One changed payload byte moves the sum by less than 256, which does not wrap to 0. -/
theorem eq_of_computeChecksum_payload_set {p : Packet} {k : Nat} (h : k < p.payload.length) {v : Byte}
    (hsum : computeChecksum { p with payload := p.payload.set k v } = computeChecksum p) : v = p.payload[k] := by
  rw [computeChecksum_eq, computeChecksum_eq, add_right_inj, ofNat_payloadSum_set _ _ h, add_eq_left, sub_eq_zero] at hsum
  exact byte_eq_of_setWidth_eq hsum

theorem computeChecksum_seqnum_add_acknum_sub (p : Packet) (d : Word) :
    computeChecksum { p with seqnum := p.seqnum + d, acknum := p.acknum - d } = computeChecksum p := by
  rw [computeChecksum_eq, computeChecksum_eq, add_add_sub_cancel]

theorem computeChecksum_seqnum_add_byte_sub (p : Packet) {k : Nat} (h : k < p.payload.length) {d : Nat}
    (hd : d ≤ (p.payload[k]).toNat) :
    computeChecksum { p with
      seqnum := p.seqnum + BitVec.ofNat 32 d, payload := p.payload.set k (p.payload[k] - BitVec.ofNat 8 d) } =
      computeChecksum p := by
  rw [computeChecksum_eq, computeChecksum_eq, ofNat_payloadSum_set _ _ h, setWidth_byte_sub hd]
  ring

theorem computeChecksum_payload_perm (p : Packet) {payload : List Byte} (h : payload.Perm p.payload) :
    computeChecksum { p with payload := payload } = computeChecksum p := by
  rw [computeChecksum_eq, computeChecksum_eq, payloadSum_perm h]

end Sys2Proof.Machine

/-- Settles O22: the sum is injective in each field that takes part in it, and the checksum field takes no part. -/
theorem singleFieldChangeIsDetected : Obligations.SingleFieldChangeIsDetected := by
  intro p hp
  refine ⟨fun v hv => ?_, fun v hv => ?_, fun v hv => ?_, fun k h v hv => ?_⟩
  · exact isCorrupted_eq_true_of_sealed hp rfl (mt computeChecksum_seqnum_iff.1 hv)
  · exact isCorrupted_eq_true_of_sealed hp rfl (mt computeChecksum_acknum_iff.1 hv)
  · have hsum : p.checksum = computeChecksum p := isCorrupted_eq_false.1 hp
    exact isCorrupted_eq_true.2 (hsum ▸ hv)
  · exact isCorrupted_eq_true_of_sealed hp rfl (mt (eq_of_computeChecksum_payload_set h) hv)

/-- Settles O23: each of the three changes keeps the sum. -/
theorem compensatingChangesGoUndetected : Obligations.CompensatingChangesGoUndetected := by
  intro p hp
  refine ⟨fun d => ?_, fun k h d hd => ?_, fun payload hperm => ?_⟩
  · exact isCorrupted_eq_false_of_sealed hp rfl (computeChecksum_seqnum_add_acknum_sub p d)
  · exact isCorrupted_eq_false_of_sealed hp rfl (computeChecksum_seqnum_add_byte_sub p h hd)
  · exact isCorrupted_eq_false_of_sealed hp rfl (computeChecksum_payload_perm p hperm)

/-- Settles O21: the checksum of `MakePacket` is the wrapped sum, whose payload part is here a sum over the integers. -/
theorem makePacketIsSealed : Obligations.MakePacketIsSealed := by
  intro seq ack payload
  refine ⟨makePacket_seqnum seq ack payload, makePacket_acknum seq ack payload, makePacket_payload seq ack payload, ?_,
    isCorrupted_makePacket seq ack payload⟩
  rw [makePacket_checksum, payloadSum_cast, wrap32]
end

section
/-!
PROOFS. Entity A's commands seen from outside: the guards, an accepted and a dropped message, the early exits of an acknowledgment
and its repetition, and what a timeout sends (R110, R116 to R118, R121 to R123).
-/

open Sys2Proof Sys2Proof.Machine

namespace Sys2Proof.Machine

/-! ### The guards -/

/-- Before `A_INIT` the other sender commands are refused (R110). -/
theorem exec_aNoinit {i : Instr} {s : State} (hi : i = .aOutput ∨ i = .aOnack ∨ i = .aOntimeout) (h : s.sender = none) :
    exec i s = raiseFault .aNoinit s := by
  rcases hi with rfl | rfl | rfl
  · simp only [exec, execAOutput, h]
  · simp only [exec, execAOnack, h]
  · simp only [exec, execAOntimeout, h]

/-! ### The packet of a message -/

/-- `MakePacket` as a record (R102). -/
theorem makePacket_eq (seq ack : Int) (payload : List Byte) :
    makePacket seq ack payload =
      ⟨wrap32 seq, wrap32 ack, payload, wrap32 (seq + ack + (payload.map (fun b => (b.toNat : Int))).sum)⟩ := by
  rw [← payloadSum_cast, ← makePacket_checksum]
  rfl

/-! ### The early exits of an acknowledgment -/

/-- The acknowledgment number `p` is that of slot `k`, which is inside the window and valid: what R118 asks of one that is not
stale. -/
structure Acknowledges (c : Config) (w : Sender) (p : Word) (k : Nat) : Prop where
  slot : fieldSlot c p = some k
  inside : ringDist c k w.base < c.W
  valid : flagGet w.valid k = true

theorem Acknowledges.eq_toNat {c : Config} {w : Sender} {p : Word} {k : Nat} (h : Acknowledges c w p k) :
    k = p.toInt.toNat := by
  have hnum : p.toInt = (k : Int) := (fieldSlot_eq_some.1 h.slot).1
  rw [hnum, Int.toNat_natCast]

/-- A number is stale, as R118 lists it, exactly when it acknowledges no slot. -/
theorem not_acknowledges_iff {c : Config} {w : Sender} {p : Word} :
    ¬ Acknowledges c w p p.toInt.toNat ↔
      p.toInt < 0 ∨ (c.S : Int) ≤ p.toInt ∨ c.W ≤ ringDist c p.toInt.toNat w.base ∨
        flagGet w.valid p.toInt.toNat = false := by
  have hslot : fieldSlot c p = some p.toInt.toNat ↔ 0 ≤ p.toInt ∧ p.toInt < c.S := by
    rw [fieldSlot_eq_some, s32]
    omega
  constructor
  · intro hno
    by_contra hlive
    push Not at hlive
    obtain ⟨hpos, hlt, hwin, hvalid⟩ := hlive
    exact hno ⟨hslot.2 ⟨hpos, hlt⟩, hwin, by simpa using hvalid⟩
  · rintro hstale ⟨hk, hwin, hvalid⟩
    have hrange := hslot.1 hk
    rcases hstale with hneg | hbig | hout | hinvalid
    · omega
    · omega
    · omega
    · cases hvalid.symm.trans hinvalid

/-- A corrupted acknowledgment (R118). -/
theorem execAOnack_corrupt {s : State} {w : Sender} (hw : s.sender = some w)
    (hcorrupt : isCorrupted (packetOperand s) = true) :
    execAOnack s = .next { s with resp := some ⟨.corrupt, 0, 0⟩, events := [] } := by
  simp only [execAOnack, hw, hcorrupt, if_true, complete_eq, wrap32_zero, respond_no_fault]

/-- A stale acknowledgment (R118). -/
theorem execAOnack_stale {s : State} {w : Sender} (hw : s.sender = some w) (hclean : isCorrupted (packetOperand s) = false)
    (hstale : ∀ k, ¬ Acknowledges s.cfg w (packetOperand s).acknum k) :
    execAOnack s = .next { s with
      cntTotalAcksReceived := s.cntTotalAcksReceived + 1, resp := some ⟨.staleAck, 0, 0⟩, events := [] } := by
  rcases execAOnack_cases s with ⟨hw', -⟩ | ⟨_, -, hc, -⟩ | ⟨_, -, -, -, hx⟩ | ⟨w', k, hw', -, hk, hwin, hvalid, -, -⟩ |
    ⟨w', k, hw', -, hk, hwin, hvalid, -, -⟩
  · cases hw.symm.trans hw'
  · cases hclean.symm.trans hc
  · rw [hx, respond_no_fault]
  · cases hw.symm.trans hw'
    exact absurd ⟨hk, hwin, hvalid⟩ (hstale k)
  · cases hw.symm.trans hw'
    exact absurd ⟨hk, hwin, hvalid⟩ (hstale k)

/-- An acknowledgment of a slot that is acknowledged already (R118). -/
theorem execAOnack_dup {s : State} {w : Sender} {k : Nat} (hw : s.sender = some w)
    (hclean : isCorrupted (packetOperand s) = false) (hk : Acknowledges s.cfg w (packetOperand s).acknum k)
    (hacked : flagGet w.acked k = true) :
    execAOnack s = .next { s with
      cntTotalAcksReceived := s.cntTotalAcksReceived + 1, resp := some ⟨.dupAck, 0, 0⟩, events := [] } := by
  have hlive : (!inWindow s.cfg k w.base || !flagGet w.valid k) = false := by
    simp [inWindow, hk.inside, hk.valid]
  simp only [execAOnack, hw, hclean, hk.slot, hlive, hacked, Bool.false_eq_true, if_false, if_true, complete_eq, wrap32_zero,
    respond_no_fault]

/-- An uncorrupted acknowledgment is duplicate or stale when the slot that it acknowledges, if any, is acknowledged already. -/
theorem execAOnack_not_new {s : State} {w : Sender} (hw : s.sender = some w)
    (hclean : isCorrupted (packetOperand s) = false)
    (hold : ∀ k, Acknowledges s.cfg w (packetOperand s).acknum k → flagGet w.acked k = true) :
    ∃ st, (st = .dupAck ∨ st = .staleAck) ∧
      execAOnack s = .next { s with
        cntTotalAcksReceived := s.cntTotalAcksReceived + 1, resp := some ⟨st, 0, 0⟩, events := [] } := by
  by_cases hlive : ∃ k, Acknowledges s.cfg w (packetOperand s).acknum k
  · obtain ⟨k, hk⟩ := hlive
    exact ⟨.dupAck, .inl rfl, execAOnack_dup hw hclean hk (hold k hk)⟩
  · exact ⟨.staleAck, .inr rfl, execAOnack_stale hw hclean (not_exists.1 hlive)⟩

/-- After the slide of a new acknowledgment its slot, if it was not retired, is acknowledged (R119). -/
theorem flagGet_ackSlide_acked {c : Config} {w : Sender} {k : Nat} (hb : w.base < c.S) (hk : k < w.acked.length)
    (hvalid : flagGet (ackSlide c w k).1.valid k = true) : flagGet (ackSlide c w k).1.acked k = true := by
  obtain ⟨-, -, -, -, -, -, hv, ha, -⟩ := slide_spec c c.S { w with acked := flagSet w.acked k true } hb le_rfl
  rw [ackSlide, hv, Bool.and_eq_true] at hvalid
  rw [ackSlide, ha, hvalid.2, flagGet_mark hk]
  simp

/-- After an uncorrupted acknowledgment, the slot that it acknowledges in the window left, if any, is acknowledged. -/
theorem execAOnack_leaves_acked {s t : State} {w : Sender} (h : SenderInv s.cfg s.aTrun w) (hw : s.sender = some w)
    (he : execAOnack s = .next t) (hclean : isCorrupted (packetOperand s) = false) :
    ∃ v, t.sender = some v ∧ packetOperand t = packetOperand s ∧
      ∀ k, Acknowledges t.cfg v (packetOperand s).acknum k → flagGet v.acked k = true := by
  by_cases hold : ∀ k, Acknowledges s.cfg w (packetOperand s).acknum k → flagGet w.acked k = true
  · obtain ⟨st, -, hx⟩ := execAOnack_not_new hw hclean hold
    cases hx.symm.trans he
    exact ⟨w, hw, rfl, hold⟩
  · push Not at hold
    obtain ⟨k, hk, hnew⟩ := hold
    have hkS : k < s.cfg.S := (fieldSlot_eq_some.1 hk.slot).2
    cases (execAOnack_new hw hclean hk.slot hk.inside hk.valid (by simpa using hnew)).symm.trans he
    refine ⟨_, rfl, rfl, fun j hj => ?_⟩
    cases hj.slot.symm.trans hk.slot
    exact flagGet_ackSlide_acked h.base_lt (h.acked_length ▸ hkS) hj.valid

/-! ### What a timeout resends -/

theorem resendSlots_unacked {c : Config} {w : Sender} {k : Nat} (h : k ∈ resendSlots c w) :
    flagGet w.valid k = true ∧ flagGet w.acked k = false := by
  simpa [isUnacked] using (List.mem_filter.1 h).2

/-- With packets outstanding, the slots to resend begin with `A_BASE` and are at most `W` (R123). -/
theorem SenderInv.resendSlots_eq_cons {c : Config} {running : Bool} {w : Sender} (h : SenderInv c running w)
    (hcount : 0 < windowCount c w) : ∃ rest, resendSlots c w = w.base :: rest ∧ rest.length < c.W := by
  have hbase : isUnacked w w.base = true := by
    have hvalid : inRun c w.base (windowCount c w) w.base = true :=
      inRun_iff.2 ⟨h.base_lt, (ringDist_self c w.base).symm ▸ hcount⟩
    rw [isUnacked, h.valid_iff, hvalid, h.base_unacked hcount]
    rfl
  obtain ⟨n, hn⟩ := Nat.exists_eq_add_of_le' c.one_le_W
  rw [resendSlots, hn, List.range_succ_eq_map, List.map_cons, ringOffset_zero h.base_lt, List.filter_cons_of_pos hbase]
  refine ⟨_, rfl, Nat.lt_succ_of_le ((List.length_filter_le _ _).trans ?_)⟩
  simp

/-- A valid slot holds a packet, so reading it gives no free value (R28 item 6). -/
theorem SenderInv.storeRead_of_valid {c : Config} {running : Bool} {w : Sender} (h : SenderInv c running w) (s : State)
    {k : Nat} (hk : flagGet w.valid k = true) : storeRead w.pkts k = some (slotRead s w.pkts k) := by
  obtain ⟨p, hp⟩ := Option.isSome_iff_exists.1 ((h.pkt_iff k).trans hk)
  rw [slotRead_of_some hp, hp]

end Sys2Proof.Machine

/-- Settles O29: the accepting outcome of `A_OUTPUT`, with its packet and its timer request written out. -/
theorem outputIsAccepted : Obligations.OutputIsAccepted := by
  intro s w hw hroom msg pkt starts doubleStart
  have hpkt : dataPacket s w = pkt := makePacket_eq (w.next : Int) (-1) msg
  rcases execAOutput_cases s with ⟨hnone, -⟩ | ⟨w', hw', -, hx⟩ | ⟨w', hw', hfull, -⟩
  · cases hw.symm.trans hnone
  · cases hw.symm.trans hw'
    rw [exec, hx, hpkt, outputTimer_fr, outputTimer_running, outputTimer_tseq, outputTimer_events, respond_if]
    rfl
  · cases hw.symm.trans hw'
    exact absurd hroom hfull.not_gt

/-- Settles O31: corrupted, stale and duplicate acknowledgments each by their own outcome of `A_ONACK`. -/
theorem ackEarlyExits : Obligations.AckEarlyExits := by
  intro s w hw pkt k stale
  have hstale : ¬ Acknowledges s.cfg w pkt.acknum k.toNat ↔ stale := not_acknowledges_iff
  refine ⟨fun hsum => ?_, fun hsum hst => ?_, fun hsum hlive hacked => ?_⟩
  · exact execAOnack_corrupt hw (isCorrupted_eq_true.2 hsum)
  · exact execAOnack_stale hw (isCorrupted_eq_false.2 hsum) fun j hj => hstale.2 hst (hj.eq_toNat ▸ hj)
  · exact execAOnack_dup hw (isCorrupted_eq_false.2 hsum) (not_not.1 (mt hstale.1 hlive)) hacked

/-- Settles O33: the timer flag decides only whether `T_SPUR` is flagged. -/
theorem timeoutResends : Obligations.TimeoutResends := by
  intro s w hw slots
  rcases execAOntimeout_cases s with ⟨hnone, -⟩ | ⟨w', hw', hx⟩
  · cases hw.symm.trans hnone
  · cases hw.symm.trans hw'
    rw [exec, hx]
    cases s.aTrun
    · rfl
    · exact congrArg _ (respond_no_fault _ _ _ _)

/-- Settles O34: the slots resent begin with `A_BASE`, and each of them is valid, so it holds a packet. -/
theorem timeoutSendsStoredPackets : Obligations.TimeoutSendsStoredPackets := by
  intro s w h hw hcount
  have hinv := h.sender w hw
  obtain ⟨rest, hslots, hlen⟩ := hinv.resendSlots_eq_cons hcount
  have hstored : ∀ k ∈ w.base :: rest, storeRead w.pkts k = some (slotRead s w.pkts k) ∧ flagGet w.acked k = false :=
    fun k hk =>
      have ⟨hvalid, hacked⟩ := resendSlots_unacked (hslots ▸ hk)
      ⟨hinv.storeRead_of_valid s hvalid, hacked⟩
  refine ⟨slotRead s w.pkts w.base, rest.map (slotRead s w.pkts), _, timeoutResends s w hw,
    (hstored w.base List.mem_cons_self).1, by simpa using hlen, fun p hp => ?_, ?_⟩
  · obtain ⟨k, hk, rfl⟩ := List.mem_map.1 hp
    exact ⟨k, hstored k (List.mem_cons_of_mem _ hk)⟩
  · show (resendSlots s.cfg w).map _ ++ _ = _
    rw [hslots, ← List.map_cons, List.map_map]
    rfl

/-- Settles O36: an uncorrupted acknowledgment leaves its slot acknowledged or out of the window, a corrupted one leaves all. -/
theorem ackIsIdempotent : Obligations.AckIsIdempotent := by
  intro s t w h hw he
  refine ⟨fun hclean => ?_, fun hcorrupt => ?_⟩
  · obtain ⟨v, hv, hpkt, hold⟩ := execAOnack_leaves_acked (h.sender w hw) hw he hclean
    rw [← hpkt] at hclean hold
    exact execAOnack_not_new hv hclean hold
  · cases (execAOnack_corrupt hw hcorrupt).symm.trans he
    exact execAOnack_corrupt hw hcorrupt

/-- Settles O27: `A_INITD` is 0 exactly while the sender has no window state. -/
theorem senderGuards : Obligations.SenderGuards := by
  refine fun s => ⟨fun hs i hi => ?_, fun hs => ?_⟩
  · have hnone : s.sender = none := by simpa [State.aInitd] using hs
    exact exec_aNoinit hi hnone
  · rcases execAInit_cases s with ⟨-, -, hx⟩ | ⟨hnone, -⟩
    · exact hx
    · simp [State.aInitd, hnone] at hs

/-- Settles O30: with the window full the only outcome of `A_OUTPUT` is the drop. -/
theorem outputIntoAFullWindowIsDropped : Obligations.OutputIntoAFullWindowIsDropped := by
  intro s w hw hfull
  rcases execAOutput_cases s with ⟨hnone, -⟩ | ⟨w', hw', hroom, -⟩ | ⟨w', hw', -, hx⟩
  · cases hw.symm.trans hnone
  · cases hw.symm.trans hw'
    exact absurd hroom hfull.not_gt
  · rw [exec, hx, respond_no_fault]
end

section
/-!
PROOFS. Entity B's commands seen from outside: the guards and the no-ops, the packets that are dropped, and the one acknowledgment
that ends every `B_ONPACKET` (R130 to R133, R136 to R138).
-/

open Sys2Proof Sys2Proof.Machine

namespace Sys2Proof.Machine

/-! ### The guard and the no-ops -/

/-- Before `B_INIT` a packet is refused (R130). -/
theorem execBOnpacket_noinit {s : State} (h : s.receiver = none) : execBOnpacket s = raiseFault .bNoinit s := by
  simp only [execBOnpacket, h]

/-- The answer of a no-op (R136, R137). -/
theorem complete_ok_zero (s : State) : complete s .ok 0 0 [] = .next { s with resp := some ⟨.ok, 0, 0⟩, events := [] } := by
  rw [complete_eq, wrap32_zero, respond_no_fault]

/-! ### The dropped packets -/

/-- A corrupted packet is acknowledged and nothing else (R133). -/
theorem execBOnpacket_corrupt {s : State} {r : Receiver} (hr : s.receiver = some r)
    (hcorrupt : isCorrupted (packetOperand s) = true) :
    execBOnpacket s = .next (respond s .corrupt 0 0 [ackEvent s.cfg r.base]) := by
  simp only [execBOnpacket, hr, hcorrupt, if_true, complete_eq, wrap32_zero]

/-- An uncorrupted packet whose number is no sequence number is counted and acknowledged, not buffered (R133). -/
theorem execBOnpacket_noSlot {s : State} {r : Receiver} (hr : s.receiver = some r)
    (hclean : isCorrupted (packetOperand s) = false) (hslot : fieldSlot s.cfg (packetOperand s).seqnum = none) :
    execBOnpacket s = .next (respond { s with cntPacketsReceived := s.cntPacketsReceived + 1 } .outOfWindow 0 0
      [ackEvent s.cfg r.base]) := by
  simp only [execBOnpacket, hr, hclean, hslot, Bool.false_eq_true, if_false, complete_eq, wrap32_zero]

/-! ### The acknowledgment -/

theorem payloadSum_replicate (n : Nat) (b : Byte) : payloadSum (List.replicate n b) = n * b.toNat := by
  rw [payloadSum, List.map_replicate, List.sum_replicate, smul_eq_mul]

/-- `MakeAck(n)` as a record: its payload is `P` bytes `0x30`, each 48 in the checksum (R101, R102, R132). -/
theorem makeAck_eq (c : Config) (n : Nat) :
    makeAck c n = ⟨0, BitVec.ofNat 32 n, List.replicate c.P 0x30, BitVec.ofNat 32 (n + 48 * c.P)⟩ := by
  have hsum : (makeAck c n).checksum = BitVec.ofNat 32 (n + 48 * c.P) := by
    rw [makeAck, makePacket_checksum, payloadSum_replicate, Config.ackSeqnum, zero_add, ← Nat.cast_add, wrap32_natCast,
      mul_comm c.P]
    rfl
  have hack : (makeAck c n).acknum = BitVec.ofNat 32 n := wrap32_natCast n
  rw [← hsum, ← hack]
  rfl

/-- `B_ONPACKET` delivers some payloads, none when the packet is dropped, and then acknowledges for the window it leaves
(R133, R138). -/
theorem execBOnpacket_acknowledges {s : State} {r : Receiver} (hr : s.receiver = some r) :
    ∃ (t : State) (v : Receiver) (payloads : List (List Byte)), execBOnpacket s = .next t ∧ t.receiver = some v ∧
      t.events = payloads.map (fun p => .deliver .B p) ++ [ackEvent s.cfg v.base] := by
  rcases execBOnpacket_cases s with ⟨hnone, -⟩ | ⟨r', hr', -, hx⟩ | ⟨r', hr', -, -, hx⟩ | ⟨r', _, -, -, -, -, -, hx⟩ |
    ⟨r', q, -, -, -, -, -, hx⟩
  · cases hr.symm.trans hnone
  · exact ⟨_, r', [], hx, hr', rfl⟩
  · exact ⟨_, r', [], hx, hr', rfl⟩
  · exact ⟨_, _, (drain s s.cfg.S r').2, hx, rfl, rfl⟩
  · exact ⟨_, _, (drain s s.cfg.S (bufferPacket r' q (packetOperand s))).2, hx, rfl, rfl⟩

end Sys2Proof.Machine

/-- Settles O38: a number of the listed kinds is either no slot or the slot of a number outside the window. -/
theorem packetIsDropped : Obligations.PacketIsDropped := by
  intro s r hr pkt q ack
  refine ⟨fun hsum => ?_, fun hsum hout => ?_⟩
  · rw [exec, execBOnpacket_corrupt hr (isCorrupted_eq_true.2 hsum), respond_no_fault, ackEvent]
  · have hclean : isCorrupted pkt = false := isCorrupted_eq_false.2 hsum
    cases hslot : fieldSlot s.cfg pkt.seqnum with
    | none => rw [exec, execBOnpacket_noSlot hr hclean hslot, respond_no_fault, ackEvent]
    | some k =>
      obtain ⟨hnum, hk⟩ := fieldSlot_eq_some.1 hslot
      have hq : q = (k : Int) := hnum
      rw [hq, Int.toNat_natCast] at hout
      have hfar : s.cfg.W ≤ ringDist s.cfg k r.base := by omega
      rw [exec, execBOnpacket_outside hr hclean hslot hfar, respond_no_fault, ackEvent]

/-- Settles O40: the acknowledgment that ends every outcome, written out. -/
theorem everyPacketIsAcknowledgedOnce : Obligations.EveryPacketIsAcknowledgedOnce := by
  intro s r hr
  obtain ⟨t, v, payloads, hx, hv, hevents⟩ := execBOnpacket_acknowledges hr
  rw [ackEvent, makeAck_eq] at hevents
  exact ⟨t, v, payloads, hx, hv, hevents⟩

/-- Settles O28: `B_INITD` is 0 exactly while the receiver has no window state, and the no-ops do not look at it. -/
theorem receiverGuards : Obligations.ReceiverGuards := by
  refine fun s => ⟨fun hs => ?_, fun hs => ?_, fun i hi => ?_⟩
  · have hnone : s.receiver = none := by simpa [State.bInitd] using hs
    exact execBOnpacket_noinit hnone
  · rcases execBInit_cases s with ⟨-, -, hx⟩ | ⟨hnone, -⟩
    · exact hx
    · simp [State.bInitd, hnone] at hs
  · rcases hi with rfl | rfl
    · exact complete_ok_zero s
    · exact complete_ok_zero s
end

section
/-!
PROOFS. What `RDSR` refuses: the number and the index before the initialised flags (R145, R156).
-/

open Sys2Proof Sys2Proof.Machine

namespace Sys2Proof.Machine

/-! ### The numbers of the table -/

/-- Every register's number stands in R40's table. -/
theorem mem_table_of_readRegOf {n : Nat} {reg : ReadReg} (h : readRegOf n = some reg) :
    n ∈ [0x00, 0x01, 0x02, 0x03, 0x08, 0x09, 0x0A, 0x0B, 0x0C, 0x10, 0x11, 0x18, 0x19, 0x1A, 0x1B, 0x1C] := by
  unfold readRegOf at h
  split at h <;> cases h <;> decide

/-- The slot registers are the numbers `0x0C` and `0x11`. -/
theorem isSlotReg_iff {n : Nat} {reg : ReadReg} (h : readRegOf n = some reg) :
    isSlotReg reg = true ↔ n = 0x0C ∨ n = 0x11 := by
  unfold readRegOf at h
  split at h <;> cases h <;> decide

/-- `RDSR`'s check of its index, said of the register's number. -/
theorem isReadIndex_iff {c : Config} {n i : Nat} {reg : ReadReg} (h : readRegOf n = some reg) :
    isReadIndex c reg i = true ↔ (n = 0x0C ∨ n = 0x11) ∧ i < c.S ∨ ¬ (n = 0x0C ∨ n = 0x11) ∧ i = 0 := by
  rw [← isSlotReg_iff h, isReadIndex]
  cases isSlotReg reg <;> simp

/-! ### The registers of an entity that is not initialised -/

theorem readReg_aNoinit {s : State} {n : Nat} (hn : n ∈ [0x08, 0x09, 0x0A, 0x0B, 0x0C]) (hs : s.sender = none) (i : Nat) :
    ∃ reg, readRegOf n = some reg ∧ readReg s reg i = .error .aNoinit := by
  have hread (value : Sender → Word) : readSender s value = .error .aNoinit := by rw [readSender, hs]
  simp only [List.mem_cons, List.not_mem_nil, or_false] at hn
  rcases hn with rfl | rfl | rfl | rfl | rfl <;> exact ⟨_, rfl, hread _⟩

theorem readReg_bNoinit {s : State} {n : Nat} (hn : n ∈ [0x10, 0x11]) (hs : s.receiver = none) (i : Nat) :
    ∃ reg, readRegOf n = some reg ∧ readReg s reg i = .error .bNoinit := by
  have hread (value : Receiver → Word) : readReceiver s value = .error .bNoinit := by rw [readReceiver, hs]
  simp only [List.mem_cons, List.not_mem_nil, or_false] at hn
  rcases hn with rfl | rfl <;> exact ⟨_, rfl, hread _⟩

/-! ### The two kinds of refusal -/

/-- `BADARG`: no register has this number and takes this index. -/
theorem exec_rdsr_badarg {s : State} {n i : Nat}
    (h : ∀ reg, readRegOf n = some reg → isReadIndex s.cfg reg i ≠ true) : exec (.rdsr n i) s = raiseFault .badarg s := by
  cases hreg : readRegOf n with
  | none => simp only [exec, execRdsr, hreg]
  | some reg => simp only [exec, execRdsr, hreg, if_neg (h reg hreg)]

/-- Number and index are legal, and the register has no value. -/
theorem exec_rdsr_noinit {s : State} {n i : Nat} {f : FaultName}
    (hreg : ∃ reg, readRegOf n = some reg ∧ readReg s reg i = .error f)
    (hidx : (n = 0x0C ∨ n = 0x11) ∧ i < s.cfg.S ∨ ¬ (n = 0x0C ∨ n = 0x11) ∧ i = 0) :
    exec (.rdsr n i) s = raiseFault f s := by
  obtain ⟨reg, hreg, hread⟩ := hreg
  simp only [exec, execRdsr, hreg, if_pos ((isReadIndex_iff hreg).2 hidx), hread]

end Sys2Proof.Machine

/-- Settles O42: a number outside the table names no register, an illegal index fails the register's check, and an entity's
registers have no value while it has no window state. -/
theorem rdsrRefusals : Obligations.RdsrRefusals := by
  intro s n i refuses slotreg
  refine ⟨fun hn => ?_, fun hslot hi => ?_, fun hslot hi => ?_, fun hn hidx hs => ?_, fun hn hidx hs => ?_⟩
  · exact exec_rdsr_badarg fun reg hreg => absurd (mem_table_of_readRegOf hreg) hn
  · refine exec_rdsr_badarg fun reg hreg hidx => ?_
    rcases (isReadIndex_iff hreg).1 hidx with ⟨-, hlt⟩ | ⟨hother, -⟩
    · exact absurd hlt hi.not_gt
    · exact hother hslot
  · refine exec_rdsr_badarg fun reg hreg hidx => ?_
    rcases (isReadIndex_iff hreg).1 hidx with ⟨hother, -⟩ | ⟨-, hzero⟩
    · exact hslot hother
    · exact hi hzero
  · have hnone : s.sender = none := by simpa [State.aInitd] using hs
    exact exec_rdsr_noinit (readReg_aNoinit hn hnone i) hidx
  · have hnone : s.receiver = none := by simpa [State.bInitd] using hs
    exact exec_rdsr_noinit (readReg_bNoinit hn hnone i) hidx
end

section
/-!
PROOFS. Every step goes on, and what the response of a command says of its faults (R151 to R155, R170).
-/

open Sys2Proof Sys2Proof.Machine

namespace Sys2Proof.Machine

theorem step_answers_next (s : State) : ∃ t, step s = .next t := by
  rcases step_cases s with ⟨-, hx⟩ | ⟨_, -, hx⟩ | ⟨_, _, _, _, -, -, hx⟩ | ⟨_, image, rest, i, -, -, hx⟩
  · exact ⟨_, hx⟩
  · exact ⟨_, hx⟩
  · exact ⟨_, hx⟩
  · obtain ⟨t, st, fr, v, evs, hexec, -⟩ := exec_shape i (takeCommand s image rest)
    exact ⟨_, hx.trans hexec⟩

/-- A response `REFUSED` tells a raised fault: the command did nothing but raise one of its aborting faults (R152). -/
theorem exec_refused {i : Instr} {s t : State} {r : Response} (h : exec i s = .next t) (hr : t.resp = some r)
    (hst : r.status = .refused) : ∃ f ∈ abortingFaults i, t = respond s .refused (faultMask f) 0 [] := by
  rcases exec_raises_or_completes i s with ⟨f, hf, hx⟩ | ⟨u, st, fr, v, evs, hx, hne, -⟩ <;> cases hx.symm.trans h
  · exact ⟨f, hf, rfl⟩
  · cases hr
    exact absurd hst hne

/-- Any other response flags nothing or a timer fault of its command (R153). -/
theorem exec_not_refused {i : Instr} {s t : State} {r : Response} (h : exec i s = .next t) (hr : t.resp = some r)
    (hst : r.status ≠ .refused) : r.fr = 0 ∨ ∃ f ∈ timerFaults i, r.fr = faultMask f := by
  rcases exec_raises_or_completes i s with ⟨f, -, hx⟩ | ⟨u, st, fr, v, evs, hx, -, hfr, -⟩ <;> cases hx.symm.trans h <;>
    cases hr
  · exact absurd rfl hst
  · exact hfr

/-- The masks of the faults a command can raise are bits 0 to 5 of `FAULT` (R151). -/
theorem faultMask_of_aborting {i : Instr} {f : FaultName} (hf : f ∈ abortingFaults i) :
    faultMask f ∈ [0x001#9, 0x002#9, 0x004#9, 0x008#9, 0x010#9, 0x020#9] := by
  cases f with
  | illcmd | badarg | aNoinit | aReinit | bNoinit | bReinit => decide
  | tDstart | tDstop | tSpur => cases i <;> simp [abortingFaults] at hf

/-- Each timer fault is one command's own (R151, R153). -/
theorem timerFaults_cases {i : Instr} {f : FaultName} (hf : f ∈ timerFaults i) :
    (i = .aOutput ∧ f = .tDstart) ∨ (i = .aOnack ∧ f = .tDstop) ∨ (i = .aOntimeout ∧ f = .tSpur) := by
  cases i with
  | aOutput => exact .inl ⟨rfl, List.mem_singleton.1 hf⟩
  | aOnack => exact .inr (.inl ⟨rfl, List.mem_singleton.1 hf⟩)
  | aOntimeout => exact .inr (.inr ⟨rfl, List.mem_singleton.1 hf⟩)
  | rdist | rinc | rdec | rinwin | csum | chk | aInit | bInit | bOnpacket | bOutput | bTimerint | rdsr => cases hf

end Sys2Proof.Machine

/-- Settles O10: the core's own moves answer a next state, and every command ends in a response. -/
theorem everyStepAnswersNext : Obligations.EveryStepAnswersNext := step_answers_next

/-- Settles O47: a refusal is a raised fault, and its mask is one of the six aborting ones. -/
theorem refusedCommandChangesNothing : Obligations.RefusedCommandChangesNothing := by
  intro i s t r h hr hst
  obtain ⟨f, hf, ht⟩ := exec_refused h hr hst
  exact ⟨⟨faultMask f, faultMask_of_aborting hf, ht⟩, step_answers_next t⟩

/-- Settles O48: the faults of a command that completes are timer faults, and each of these is one command's own. -/
theorem timerFaultsOfEachCommand : Obligations.TimerFaultsOfEachCommand := by
  intro i s t r h hr hst
  rcases exec_not_refused h hr hst with hfr | ⟨f, hf, hfr⟩
  · exact .inl hfr
  · rcases timerFaults_cases hf with ⟨hi, rfl⟩ | ⟨hi, rfl⟩ | ⟨hi, rfl⟩
    · exact .inr (.inl ⟨hi, hfr⟩)
    · exact .inr (.inr (.inl ⟨hi, hfr⟩))
    · exact .inr (.inr (.inr ⟨hi, hfr⟩))

/-- Settles O9: of the host's moves, an empty list allows only the idle one. -/
theorem idleCoreHoldsItsState : Obligations.IdleCoreHoldsItsState := by
  intro s hin
  rcases step_cases s with ⟨-, hx⟩ | ⟨_, hin', -⟩ | ⟨_, _, _, _, hin', -, -⟩ | ⟨_, _, _, _, hin', -, -⟩
  · exact hx
  all_goals cases hin.symm.trans hin'
end
